-- ==== Sys2Proof/Word.lean ====
section
/-! DEFINITION. The word types of PRSA-CORE: bus words, bus addresses, operand registers, register indices. -/

namespace Sys2Proof

/-- A 32-bit bus word, a control or status register, a command word (R12, R24, R55). -/
abbrev Word := BitVec 32

/-- A byte address of the host bus space (R12, R38). -/
abbrev Addr := BitVec 16

/-- One byte lane of a bus word (R40). -/
abbrev Byte := BitVec 8

/-- The contents of an operand register: its W/32 words, word 0 (bits 31 to 0) first, as the bus window
shows them (R7, R21, R40). W is a parameter, so the number of words is a fact of the state, not of the
type (log 11). -/
abbrev Operand := List Word

/-- A register field of a command word: an unsigned 4-bit index naming x0 to x15 (R8, R56). -/
abbrev RegIdx := Fin 16

end Sys2Proof
end

