-- ==== Sys2Proof/Config.lean ====
section
/-! DEFINITION. What a configuration of PRSA-CORE fixes: the operand width W, the window width WIN,
and the constants of the block. -/

namespace Sys2Proof

/-- The configuration parameters: `words` = W/32, the number of 32-bit words of an operand register
(R7: W a multiple of 32 with 64 ≤ W ≤ 8192; R26: 2 to 256), and `win` = WIN (R9: 1 to 6).
The legal ranges are carried, so that no other configuration can be written down. -/
structure Params where
  words : Nat
  win : Nat
  two_le_words : 2 ≤ words
  words_le : words ≤ 256
  one_le_win : 1 ≤ win
  win_le : win ≤ 6
  deriving DecidableEq, Repr

/-- W, the operand width in bits (R7). -/
def Params.width (p : Params) : Nat := 32 * p.words

namespace Config

/-- The reference configuration, W = 4096 and WIN = 4 (R7, R9).
DESIGN CHOICE (log 3): State.reset uses it. -/
def reference : Params := ⟨128, 4, by decide, by decide, by decide, by decide⟩

/-- The number of operand registers (R8). -/
def nreg : Nat := 16

/-- The constant of the ID register (R25). -/
def idWord : Word := 0x50525341#32

/-- The command set version read in PARAM.VERSION (R1, R26). -/
def version : Nat := 1

end Config

end Sys2Proof
end

