-- ==== Sys2Proof/Syntax.lean ====
section
/-! DEFINITION. The syntax of commands: the fields of format R6 and the eight commands. -/

namespace Sys2Proof

/-- The seven fields of a command word, format R6 (R56). -/
structure Fields where
  op : BitVec 8
  rd : RegIdx
  rs1 : RegIdx
  rs2 : RegIdx
  rs3 : RegIdx
  rs4 : RegIdx
  rs5 : RegIdx
  deriving DecidableEq, Repr

/-- The eight commands, one constructor per row of the opcode map (R58); the arguments are the used
register fields in the order rd, rs1, rs2, … (R62), named by their role. -/
inductive Instr where
  | modred (rd a m : RegIdx)
  | modmul (rd a b m : RegIdx)
  | montmul (rd a b m : RegIdx)
  | modexp (rd base exp m : RegIdx)
  | mrwit (rd x a : RegIdx)
  | gcd (rd a b : RegIdx)
  | modinv (rd a m : RegIdx)
  | crt (rd m1 m2 p q qinv : RegIdx)
  deriving DecidableEq, Repr

/-- The destination register a command names (R58). -/
def Instr.dest : Instr → RegIdx
  | .modred rd _ _ => rd
  | .modmul rd _ _ _ => rd
  | .montmul rd _ _ _ => rd
  | .modexp rd _ _ _ => rd
  | .mrwit rd _ _ => rd
  | .gcd rd _ _ => rd
  | .modinv rd _ _ => rd
  | .crt rd _ _ _ _ _ => rd

/-- The same command with another destination (R72). -/
def Instr.withDest : Instr → RegIdx → Instr
  | .modred _ a m, rd => .modred rd a m
  | .modmul _ a b m, rd => .modmul rd a b m
  | .montmul _ a b m, rd => .montmul rd a b m
  | .modexp _ base exp m, rd => .modexp rd base exp m
  | .mrwit _ x a, rd => .mrwit rd x a
  | .gcd _ a b, rd => .gcd rd a b
  | .modinv _ a m, rd => .modinv rd a m
  | .crt _ m1 m2 p q qinv, rd => .crt rd m1 m2 p q qinv

/-- The register a command takes its modulus from, if it has one (R93: MRWIT's is x, CRT's is p). -/
def Instr.modulus : Instr → Option RegIdx
  | .modred _ _ m => some m
  | .modmul _ _ _ m => some m
  | .montmul _ _ _ m => some m
  | .modexp _ _ _ m => some m
  | .mrwit _ x _ => some x
  | .gcd _ _ _ => none
  | .modinv _ _ m => some m
  | .crt _ _ _ p _ _ => some p

/-- Whether a command needs an odd modulus (R93). -/
def Instr.needsOdd : Instr → Bool
  | .modred .. => false
  | .modmul .. => false
  | .montmul .. => true
  | .modexp .. => true
  | .mrwit .. => true
  | .gcd .. => false
  | .modinv .. => false
  | .crt .. => false

end Sys2Proof
end

