-- ==== Sys2Proof/Machine/State.lean ====
section
/-! DEFINITION. The state of PRSA-CORE as plain data (10_state.md), what may happen to it next (the
agenda), its reset value (R36), and the reasons a step could stop. -/

namespace Sys2Proof.Machine

/-- The engine phase (R23), read as STATUS.BUSY (R29). -/
inductive Phase where
  | idle
  | busy
  deriving DecidableEq, Repr

/-- The error codes STATUS.ECODE can hold (R93); codes 7 to 15 are never produced. -/
inductive ErrCode where
  | none
  | illegalCmd
  | zeroModulus
  | evenModulus
  | range
  | noInverse
  | overflow
  deriving DecidableEq, Repr

/-- What a command's computation returns (R69): a result with its flag bit, or an error code.
The result is the exact natural number the rule gives; it is below 2^W (R74). -/
inductive Result where
  | ok (v : Nat) (f : Bool)
  | err (c : ErrCode)
  deriving DecidableEq, Repr

/-- What an address of the core's space names (R39, R24). -/
inductive Target where
  | id
  | param
  | cmd
  | status
  | ctrl
  /-- Word `k` of the window of register `r` (R40). -/
  | window (r : RegIdx) (k : Nat)
  | reserved
  deriving DecidableEq, Repr

/-- One event of the single order in which the core sees its host, its engine and its reset
(R48, R66, R98). -/
inductive Event where
  /-- A host bus read of the word at an address of the core's space (R16, R38). -/
  | read (a : Addr)
  /-- A host bus write of a word (R16, R38). -/
  | write (a : Addr) (v : Word)
  /-- The reset input is asserted (R108). -/
  | reset
  /-- The engine takes its turn: a completion if it is BUSY (R66, R70). -/
  | engine
  /-- The host polls STATUS until BUSY reads 0: the `wait` of R64. -/
  | waitIdle
  /-- The host waits until the interrupt output is asserted (R112, R119). -/
  | waitIrq
  deriving DecidableEq, Repr

/-- The complete state (10_state.md, its header and R20 to R37), the configuration it runs under, and
two fields of the model's own: `agenda` and `reads`. -/
structure State where
  /-- The configuration (R7, R9, R26); no step writes it. -/
  params : Params
  /-- The operand registers x0 to x15 (R21). -/
  regs : Vector Operand 16
  /-- The engine phase (R23). -/
  phase : Phase
  /-- The last accepted command word, the value CMD reads (R27). -/
  cmd : Word
  /-- STATUS.DONE (R30). -/
  done : Bool
  /-- STATUS.ERR (R31). -/
  err : Bool
  /-- STATUS.FLAG (R32). -/
  flag : Bool
  /-- STATUS.OVR (R33). -/
  ovr : Bool
  /-- STATUS.ACCV (R34). -/
  accv : Bool
  /-- STATUS.ECODE (R31, R93). -/
  ecode : ErrCode
  /-- CTRL.IRQ_EN (R35). -/
  irqEn : Bool
  /-- The model's own: the events still to come, in the order the core sees them (log 2, log 15). -/
  agenda : List Event
  /-- The model's own: the words bus reads returned to the host, newest first (log 4). -/
  reads : List Word
  deriving DecidableEq, Repr

/-- Reasons for the machine to stop with a fault: none. No bus access faults (R95), there is no trap
(R99), and a failing command is a completion that records an error (R94), so no step raises a fault.
A claim that no fault occurs is therefore true of the block as well (safe, log 9). -/
inductive Fault where
  deriving DecidableEq, Repr

/-- Reasons to refuse a step. -/
inductive Refusal where
  /-- The command has no meaning in this model yet. Raised by `exec`'s arm of that command only, and by
  no arm at present. Safe: the model stops where the block goes on. -/
  | notModelled (mnemonic : String)
  deriving DecidableEq, Repr

/-- The state after reset of a block of configuration `p`, with nothing on the agenda and nothing
read (R36, R108). -/
def State.resetOf (p : Params) : State where
  params := p
  regs := Vector.replicate 16 (List.replicate p.words 0#32)
  phase := .idle
  cmd := 0#32
  done := false
  err := false
  flag := false
  ovr := false
  accv := false
  ecode := .none
  irqEn := false
  agenda := []
  reads := []

/-- The machine right after reset (R36), in the reference configuration (DESIGN CHOICE, log 3). -/
def State.reset : State := State.resetOf Config.reference

end Sys2Proof.Machine
end

