-- ==== Sys2Proof/Machine/Arith.lean ====
section
/-! DEFINITION. The exact arithmetic of the commands on natural numbers (R14, R15), in a form that can
be evaluated. The rules fix the results and leave the method free (R79, R81; log 10). -/

namespace Sys2Proof.Machine.Arith

/-- Right-to-left square and multiply: `acc * g ^ e` modulo `m`, given `fuel ≥ e`. -/
def powLoop : (fuel acc g e m : Nat) → Nat
  | 0, acc, _, _, _ => acc
  | fuel + 1, acc, g, e, m =>
    if e = 0 then acc
    else powLoop fuel (if e % 2 = 1 then acc * g % m else acc) (g * g % m) (e / 2) m

/-- `g ^ e mod m` (R80); `g ^ 0` is 1 for every g, so e = 0 gives 1 mod m. -/
def powMod (g e m : Nat) : Nat := powLoop e (1 % m) (g % m) e m

/-- The extended Euclidean algorithm on remainders r0, r1 with coefficients t0, t1 kept reduced modulo
`m`, given `fuel ≥ r1`; it answers the coefficient that belongs to the last nonzero remainder. -/
def euclidLoop : (fuel r0 t0 r1 t1 m : Nat) → Nat
  | 0, _, t0, _, _, _ => t0
  | fuel + 1, r0, t0, r1, t1, m =>
    if r1 = 0 then t0
    else euclidLoop fuel r1 t1 (r0 % r1) ((t0 + (m - r0 / r1 * t1 % m)) % m) m

/-- `inv(a, m)` of R15: for m ≥ 1 and gcd(a mod m, m) = 1 the unique r < m with
(a·r) mod m = 1 mod m, which is 0 for m = 1. -/
def inv (a m : Nat) : Nat := euclidLoop m m 0 (a % m) (1 % m) m

/-- The Montgomery product with radix R = 2^W (R77). -/
def montmul (w a b m : Nat) : Nat := a * b * inv (2 ^ w) m % m

/-- Divide out the factors 2: from (d, s) to (d', s') with d·2^s = d'·2^s' and d' odd, given
`fuel ≥ d > 0` (the `while` of R87). -/
def splitTwos : (fuel d s : Nat) → Nat × Nat
  | 0, d, s => (d, s)
  | fuel + 1, d, s => if d % 2 = 0 then splitTwos fuel (d / 2) (s + 1) else (d, s)

/-- Whether one of `n` iterations, each checking b against x − 1 and then squaring it, finds b = x − 1
(the `for` of R87). -/
def matchesMinusOne : (n b x : Nat) → Bool
  | 0, _, _ => false
  | n + 1, b, x => b == x - 1 || matchesMinusOne n (b * b % x) x

/-- The verdict of one Miller-Rabin round for odd x ≥ 3: true when the round proves x composite
(R87). -/
def witnessVerdict (x a : Nat) : Bool :=
  match splitTwos (x - 1) (x - 1) 0 with
  | (d, s) =>
    let b := powMod a d x
    if b = 1 then false else !matchesMinusOne s b x

/-- h = (qinv·(m1 − m2 + p)) mod p on exact signed integers, the non-negative residue (R90, R15). -/
def crtH (m1 m2 p qinv : Nat) : Nat := ((qinv : Int) * ((m1 : Int) - m2 + p) % p).toNat

/-- m2 + h·q (R90). -/
def crtValue (m1 m2 p q qinv : Nat) : Nat := m2 + crtH m1 m2 p qinv * q

end Sys2Proof.Machine.Arith
end

