-- ==== Sys2Proof/WellFormed.lean ====
section
/-! DEFINITION. Which command fields are well formed (R58, R59), and which widths are legal (R7, R9). -/

namespace Sys2Proof

/-- The opcode is one of the eight of the map (R58). -/
def Fields.opDefined (f : Fields) : Bool := 1 ≤ f.op.toNat && f.op.toNat ≤ 8

/-- rs3 is unused by MODRED, MRWIT, GCD and MODINV and must then be 0 (R58). -/
def Fields.rs3Clear (f : Fields) : Bool :=
  f.rs3 = 0 || !(f.op = 0x01#8 || f.op = 0x05#8 || f.op = 0x06#8 || f.op = 0x07#8)

/-- rs4 is unused by every command but CRT and must then be 0 (R58). -/
def Fields.rs4Clear (f : Fields) : Bool := f.rs4 = 0 || f.op = 0x08#8

/-- rs5 is unused by every command but CRT and must then be 0 (R58). -/
def Fields.rs5Clear (f : Fields) : Bool := f.rs5 = 0 || f.op = 0x08#8

/-- The fields form a command: a defined opcode and every unused field 0 (R59, R60). -/
def Fields.wf (f : Fields) : Bool := f.opDefined && f.rs3Clear && f.rs4Clear && f.rs5Clear

/-- The configuration of operand width `w` and window width `win`, if R7 and R9 admit it. -/
def Params.ofWidth (w win : Nat) : Option Params :=
  if hd : w % 32 = 0 then
    if hw : 64 ≤ w ∧ w ≤ 8192 then
      if hn : 1 ≤ win ∧ win ≤ 6 then
        some ⟨w / 32, win, by omega, by omega, hn.1, hn.2⟩
      else none
    else none
  else none

end Sys2Proof
end

