-- ==== Sys2Proof/Decode.lean ====
section
/-! DEFINITION. Decoding of command words, total and rejecting by name (R55 to R61), then the encoder,
the opcode map as match and mask rows (R58), and the assembler's syntax (R62, R63). -/

namespace Sys2Proof

/-- The fields of a command word (R56). -/
def fieldsOf (w : Word) : Fields where
  op := w.extractLsb' 0 8
  rd := (w.extractLsb' 8 4).toFin
  rs1 := (w.extractLsb' 12 4).toFin
  rs2 := (w.extractLsb' 16 4).toFin
  rs3 := (w.extractLsb' 20 4).toFin
  rs4 := (w.extractLsb' 24 4).toFin
  rs5 := (w.extractLsb' 28 4).toFin

/-- Why a word is no command (R60). -/
inductive Illegal where
  /-- op is 0x00 or 0x09 to 0xFF. Raised by `decode`; the word ends with ILLEGAL_CMD, as the block does (safe). -/
  | undefinedOpcode
  /-- A defined op with a nonzero unused field. Raised by `decode`; ends with ILLEGAL_CMD, as the block does (safe). -/
  | unusedFieldNonzero
  deriving DecidableEq, Repr

/-- The command of the fields, or why there is none (R58, R59, R60). -/
def decodeFields (f : Fields) : Except Illegal Instr :=
  match f.op.toNat with
  | 0x01 => if f.rs3 = 0 ∧ f.rs4 = 0 ∧ f.rs5 = 0 then .ok (.modred f.rd f.rs1 f.rs2)
            else .error .unusedFieldNonzero
  | 0x02 => if f.rs4 = 0 ∧ f.rs5 = 0 then .ok (.modmul f.rd f.rs1 f.rs2 f.rs3)
            else .error .unusedFieldNonzero
  | 0x03 => if f.rs4 = 0 ∧ f.rs5 = 0 then .ok (.montmul f.rd f.rs1 f.rs2 f.rs3)
            else .error .unusedFieldNonzero
  | 0x04 => if f.rs4 = 0 ∧ f.rs5 = 0 then .ok (.modexp f.rd f.rs1 f.rs2 f.rs3)
            else .error .unusedFieldNonzero
  | 0x05 => if f.rs3 = 0 ∧ f.rs4 = 0 ∧ f.rs5 = 0 then .ok (.mrwit f.rd f.rs1 f.rs2)
            else .error .unusedFieldNonzero
  | 0x06 => if f.rs3 = 0 ∧ f.rs4 = 0 ∧ f.rs5 = 0 then .ok (.gcd f.rd f.rs1 f.rs2)
            else .error .unusedFieldNonzero
  | 0x07 => if f.rs3 = 0 ∧ f.rs4 = 0 ∧ f.rs5 = 0 then .ok (.modinv f.rd f.rs1 f.rs2)
            else .error .unusedFieldNonzero
  | 0x08 => .ok (.crt f.rd f.rs1 f.rs2 f.rs3 f.rs4 f.rs5)
  | _ => .error .undefinedOpcode

/-- Decoding of a command word: a total function of its 32 bits (R59). -/
def decode (w : Word) : Except Illegal Instr := decodeFields (fieldsOf w)

/-- A command word of `nbits` bits given as the number `w`, bit 0 the least significant, every
higher bit 0. -/
def wordOfTable (nbits w : Nat) : Word := BitVec.ofNat 32 (w % 2 ^ nbits)

/-- What the decoder reads from a table row's word of `nbits` bits; a command is one 32-bit word, so
a longer word is none (R55). -/
def decodeTableWord (nbits w : Nat) : Option Instr :=
  if w % 2 ^ nbits < 2 ^ 32 then (decode (wordOfTable nbits w)).toOption else none

/-- The 4 bits of a register field (R56). -/
def regBits (r : RegIdx) : BitVec 4 := BitVec.ofFin r

/-- A word with the field `v` at bits `lo` upward and 0 elsewhere (R13). -/
def placeField {n : Nat} (v : BitVec n) (lo : Nat) : Word := v.setWidth 32 <<< lo

/-- The command word of the fields (R56). -/
def Fields.toWord (f : Fields) : Word :=
  placeField f.op 0 ||| placeField (regBits f.rd) 8 ||| placeField (regBits f.rs1) 12 |||
    placeField (regBits f.rs2) 16 ||| placeField (regBits f.rs3) 20 |||
    placeField (regBits f.rs4) 24 ||| placeField (regBits f.rs5) 28

/-- The fields of a command: its opcode, its registers, and 0 in every unused field (R58). -/
def Instr.fields : Instr → Fields
  | .modred rd a m => ⟨0x01#8, rd, a, m, 0, 0, 0⟩
  | .modmul rd a b m => ⟨0x02#8, rd, a, b, m, 0, 0⟩
  | .montmul rd a b m => ⟨0x03#8, rd, a, b, m, 0, 0⟩
  | .modexp rd base exp m => ⟨0x04#8, rd, base, exp, m, 0, 0⟩
  | .mrwit rd x a => ⟨0x05#8, rd, x, a, 0, 0, 0⟩
  | .gcd rd a b => ⟨0x06#8, rd, a, b, 0, 0, 0⟩
  | .modinv rd a m => ⟨0x07#8, rd, a, m, 0, 0, 0⟩
  | .crt rd m1 m2 p q qinv => ⟨0x08#8, rd, m1, m2, p, q, qinv⟩

/-- The command word of a command (R56, R58). -/
def encode (i : Instr) : Word := i.fields.toWord

/-- One row of the opcode map: the mnemonic in lower case (R62) and its match and mask (R58). -/
structure OpRow where
  name : String
  matchBits : Word
  maskBits : Word
  deriving DecidableEq, Repr

/-- A word selects a row when `w & mask = match` (R58). -/
def OpRow.selects (row : OpRow) (w : Word) : Bool := w &&& row.maskBits == row.matchBits

/-- The opcode map of R58, in its order. -/
def opcodeMap : List OpRow :=
  [⟨"modred", 0x00000001#32, 0xFFF000FF#32⟩,
   ⟨"modmul", 0x00000002#32, 0xFF0000FF#32⟩,
   ⟨"montmul", 0x00000003#32, 0xFF0000FF#32⟩,
   ⟨"modexp", 0x00000004#32, 0xFF0000FF#32⟩,
   ⟨"mrwit", 0x00000005#32, 0xFFF000FF#32⟩,
   ⟨"gcd", 0x00000006#32, 0xFFF000FF#32⟩,
   ⟨"modinv", 0x00000007#32, 0xFFF000FF#32⟩,
   ⟨"crt", 0x00000008#32, 0x000000FF#32⟩]

/-- A command's mnemonic, in lower case as the assembler writes it (R62). -/
def Instr.name : Instr → String
  | .modred .. => "modred"
  | .modmul .. => "modmul"
  | .montmul .. => "montmul"
  | .modexp .. => "modexp"
  | .mrwit .. => "mrwit"
  | .gcd .. => "gcd"
  | .modinv .. => "modinv"
  | .crt .. => "crt"

/-- The used register fields of a command in the order the assembler writes them (R62). -/
def Instr.operands : Instr → List RegIdx
  | .modred rd a m => [rd, a, m]
  | .modmul rd a b m => [rd, a, b, m]
  | .montmul rd a b m => [rd, a, b, m]
  | .modexp rd base exp m => [rd, base, exp, m]
  | .mrwit rd x a => [rd, x, a]
  | .gcd rd a b => [rd, a, b]
  | .modinv rd a m => [rd, a, m]
  | .crt rd m1 m2 p q qinv => [rd, m1, m2, p, q, qinv]

/-- One assembler line, after its text has been cut into a mnemonic and registers (R62):
a mnemonic with its register list, or `.word v` (log 16). -/
inductive AsmLine where
  | op (name : String) (regs : List RegIdx)
  | word (v : Word)
  deriving DecidableEq, Repr

/-- `modsqr rd, a, m` (R63). -/
def modsqr (rd a m : RegIdx) : Instr := .modmul rd a a m
/-- `tomont rd, a, rr, m` (R63). -/
def tomont (rd a rr m : RegIdx) : Instr := .montmul rd a rr m
/-- `frommont rd, a, one, m` (R63). -/
def frommont (rd a one m : RegIdx) : Instr := .montmul rd a one m
/-- `copy rd, a, big` (R63). -/
def copyReg (rd a big : RegIdx) : Instr := .modred rd a big

/-- The command of an assembler mnemonic with its registers: the eight commands (R62) and the four
pseudo-instructions (R63). -/
def assembleOp (name : String) (regs : List RegIdx) : Option Instr :=
  match regs with
  | [rd, a, b] =>
    if name = "modred" then some (.modred rd a b)
    else if name = "mrwit" then some (.mrwit rd a b)
    else if name = "gcd" then some (.gcd rd a b)
    else if name = "modinv" then some (.modinv rd a b)
    else if name = "modsqr" then some (modsqr rd a b)
    else if name = "copy" then some (copyReg rd a b)
    else none
  | [rd, a, b, m] =>
    if name = "modmul" then some (.modmul rd a b m)
    else if name = "montmul" then some (.montmul rd a b m)
    else if name = "modexp" then some (.modexp rd a b m)
    else if name = "tomont" then some (tomont rd a b m)
    else if name = "frommont" then some (frommont rd a b m)
    else none
  | [rd, m1, m2, p, q, qinv] =>
    if name = "crt" then some (.crt rd m1 m2 p q qinv) else none
  | _ => none

/-- The command word an assembler line stands for (R62, R63); `.word v` is v, legal or not. -/
def assemble : AsmLine → Option Word
  | .op name regs => (assembleOp name regs).map encode
  | .word v => some v

end Sys2Proof
end

