-- ==== Sys2Proof/Machine/Flags.lean ====
section
/-! DEFINITION. The read values of the control and status registers, the STATUS fields a write clears,
and the interrupt output (10_state.md R24 to R35, 60_exceptions.md R93, R96). -/

namespace Sys2Proof.Machine

/-- The number of an error code (R93). -/
def ErrCode.bits : ErrCode → BitVec 4
  | .none => 0#4
  | .illegalCmd => 1#4
  | .zeroModulus => 2#4
  | .evenModulus => 3#4
  | .range => 4#4
  | .noInverse => 5#4
  | .overflow => 6#4

/-- STATUS.BUSY reads 1 exactly when the phase is BUSY (R29). -/
def State.busy (s : State) : Bool :=
  match s.phase with
  | .idle => false
  | .busy => true

/-- The value STATUS reads: the fields of R28, reserved bits 0. -/
def State.statusWord (s : State) : Word :=
  placeField (BitVec.ofBool s.busy) 0 ||| placeField (BitVec.ofBool s.done) 1 |||
    placeField (BitVec.ofBool s.err) 2 ||| placeField (BitVec.ofBool s.flag) 3 |||
    placeField (BitVec.ofBool s.ovr) 4 ||| placeField (BitVec.ofBool s.accv) 5 |||
    placeField s.ecode.bits 8

/-- The value CTRL reads: IRQ_EN in bit 0, SRST and the reserved bits 0 (R35). -/
def State.ctrlWord (s : State) : Word := placeField (BitVec.ofBool s.irqEn) 0

/-- The value PARAM reads: WORDS, NREGM1, WIN, VERSION (R26). -/
def State.paramWord (s : State) : Word :=
  placeField (BitVec.ofNat 16 s.params.words) 0 ||| placeField (BitVec.ofNat 4 (Config.nreg - 1)) 16 |||
    placeField (BitVec.ofNat 4 s.params.win) 20 ||| placeField (BitVec.ofNat 8 Config.version) 24

/-- The interrupt output: irq = IRQ_EN AND DONE, a level (R96). -/
def State.irq (s : State) : Bool := s.irqEn && s.done

/-- A STATUS write: a 1 in bit 1, 2, 4 or 5 clears DONE, ERR with ECODE, OVR or ACCV; every other bit of
the written value is ignored (R28, R30, R31, R33, R34). DEDUCED: it acts while BUSY as well (log 17). -/
def State.writeStatus (s : State) (v : Word) : State :=
  { s with
    done := s.done && !v[1]
    err := s.err && !v[2]
    ecode := if v[2] then .none else s.ecode
    ovr := s.ovr && !v[4]
    accv := s.accv && !v[5] }

end Sys2Proof.Machine
end

