-- ==== Sys2Proof/Machine/Operands.lean ====
section
/-! DEFINITION. Reading and writing operand registers, the words of their bus windows, and the decoding
of bus addresses (10_state.md R21, R22; 20_memory.md R38 to R45). -/

namespace Sys2Proof.Machine

/-- `uint(v)` of a register's words, word 0 first: Σ word_k·2^(32k), which is Σ v[i]·2^i (R14, R64). -/
def operandValue : Operand → Nat
  | [] => 0
  | w :: ws => w.toNat + 2 ^ 32 * operandValue ws

/-- `zext_W(n)` in `words` words, word 0 first (R14); n is below 2^W wherever a rule uses it (R74). -/
def operandOfNat : (words n : Nat) → Operand
  | 0, _ => []
  | words + 1, n => BitVec.ofNat 32 n :: operandOfNat words (n / 2 ^ 32)

/-- Word `k` of a register: its bits 32k+31 to 32k, or 0 past its last word (R40). -/
def operandWord (x : Operand) (k : Nat) : Word := x.getD k 0#32

/-- A register with its bits 32k+31 to 32k replaced by `v`, every other bit kept (R42). -/
def operandSetWord (x : Operand) (k : Nat) (v : Word) : Operand := x.set k v

/-- `x[r]` (R16). No register is hard-wired (R21). -/
def State.reg (s : State) (r : RegIdx) : Operand := s.regs[r.val]

/-- `uint(x[r])`, the natural number a command reads (R14, R17, R57). -/
def State.x (s : State) (r : RegIdx) : Nat := operandValue (s.reg r)

/-- `x[r] <- v` (R16). -/
def State.setReg (s : State) (r : RegIdx) (v : Operand) : State :=
  { s with regs := s.regs.set r.val v }

/-- The byte address of the word an access at `a` acts on: bits [1:0] are ignored (R44). -/
def alignedAddr (a : Addr) : Nat := a.toNat / 4 * 4

/-- `WA(r, k)`, the address of word `k` of the window of register `r` (R40). -/
def windowAddr (r : RegIdx) (k : Nat) : Addr := BitVec.ofNat 16 (0x1000 + 0x400 * r.val + 4 * k)

/-- The address map (R39) with the control and status registers of R24. -/
def busTarget (a : Addr) : Target :=
  let o := alignedAddr a
  if o = 0x000 then .id
  else if o = 0x004 then .param
  else if o = 0x008 then .cmd
  else if o = 0x00C then .status
  else if o = 0x010 then .ctrl
  else if 0x1000 ≤ o ∧ o < 0x5000 then .window (Fin.ofNat 16 ((o - 0x1000) / 0x400)) (o % 0x400 / 4)
  else .reserved

end Sys2Proof.Machine
end

