-- ==== Sys2Proof/Machine/Ops.lean ====
section
/-! DEFINITION. The operations every agent shares: issue, completion with and without error, reset, and
host bus reads and writes (20_memory.md, 40_command_execution.md, 60_exceptions.md, 70_reset_and_hazards.md). -/

namespace Sys2Proof.Machine

/-- Reset, hardware or soft: every piece of the block's state takes its value of R36; the configuration
is unchanged (R36, R108, R109; log 13). What the host has still to do and has read is not the block's. -/
def State.applyReset (s : State) : State :=
  { State.resetOf s.params with agenda := s.agenda, reads := s.reads }

/-- An accepted CMD write: CMD takes the word, the phase becomes BUSY, and DONE, ERR, ECODE and FLAG are
cleared; OVR and ACCV are not changed (R67). -/
def State.accept (s : State) (w : Word) : State :=
  { s with cmd := w, phase := .busy, done := false, err := false, ecode := .none, flag := false }

/-- A dropped CMD write sets OVR and nothing else (R68, R33). -/
def State.markOverrun (s : State) : State := { s with ovr := true }

/-- A refused window access sets ACCV and nothing else (R34). -/
def State.markAccessViolation (s : State) : State := { s with accv := true }

/-- Successful completion: x[rd] <- v, FLAG <- f, ERR <- 0, ECODE <- 0, DONE <- 1, phase <- IDLE
(R70). The result is below 2^W (R74), so `zext_W(v)` is v. -/
def State.completeOk (s : State) (rd : RegIdx) (v : Nat) (f : Bool) : State :=
  { s.setReg rd (operandOfNat s.params.words v) with
    flag := f, err := false, ecode := .none, done := true, phase := .idle }

/-- Completion with error `c`: what the machine does in place of an exception. ERR <- 1, ECODE <- c,
FLAG <- 0, DONE <- 1, phase <- IDLE; no operand register is written, CMD keeps the failing word, and
nothing is saved or redirected (R70, R94, R99). -/
def State.completeErr (s : State) (c : ErrCode) : State :=
  { s with err := true, ecode := c, flag := false, done := true, phase := .idle }

/-- Completion of a command whose computation returned `res`, into `rd` (R70). -/
def State.complete (s : State) (rd : RegIdx) (res : Result) : State :=
  match res with
  | .ok v f => s.completeOk rd v f
  | .err c => s.completeErr c

/-- The value a bus read of `t` returns (R24 to R28, R35, R41, R45). A window read while BUSY, or of a
word k ≥ W/32, returns 0. -/
def State.readValue (s : State) (t : Target) : Word :=
  match t with
  | .id => Config.idWord
  | .param => s.paramWord
  | .cmd => s.cmd
  | .status => s.statusWord
  | .ctrl => s.ctrlWord
  | .window r k =>
    if s.busy then 0#32 else if k < s.params.words then operandWord (s.reg r) k else 0#32
  | .reserved => 0#32

/-- The side effect of a bus read of `t`: a window read while BUSY sets ACCV; no other read changes
anything (R41, R46). -/
def State.readEffect (s : State) (t : Target) : State :=
  match t with
  | .window _ _ => if s.busy then s.markAccessViolation else s
  | .id => s
  | .param => s
  | .cmd => s
  | .status => s
  | .ctrl => s
  | .reserved => s

/-- `MemRead(a, 4)`: the word the host receives (R16, R44). -/
def State.busPeek (s : State) (a : Addr) : Word := s.readValue (busTarget a)

/-- A host bus read: its side effect, and the word it returns added to `reads` (R16, R41, R46). -/
def State.busRead (s : State) (a : Addr) : State :=
  let s' := s.readEffect (busTarget a)
  { s' with reads := s.busPeek a :: s'.reads }

/-- A write of `v` to word `k` of the window of `r`: dropped with ACCV while BUSY, ignored for
k ≥ W/32 (R42). -/
def State.writeWindow (s : State) (r : RegIdx) (k : Nat) (v : Word) : State :=
  if s.busy then s.markAccessViolation
  else if k < s.params.words then s.setReg r (operandSetWord (s.reg r) k v)
  else s

/-- A CMD write: accepted while IDLE, dropped while BUSY (R67, R68). -/
def State.writeCmd (s : State) (v : Word) : State :=
  match s.phase with
  | .idle => s.accept v
  | .busy => s.markOverrun

/-- A CTRL write: bit 1 performs the soft reset, whatever bit 0 is; otherwise IRQ_EN takes bit 0 (R35,
R109). -/
def State.writeCtrl (s : State) (v : Word) : State :=
  if v[1] then s.applyReset else { s with irqEn := v[0] }

/-- A write to what an address names; writes to read-only registers and reserved addresses are ignored
(R24, R45). -/
def State.writeTarget (s : State) (t : Target) (v : Word) : State :=
  match t with
  | .id => s
  | .param => s
  | .cmd => s.writeCmd v
  | .status => s.writeStatus v
  | .ctrl => s.writeCtrl v
  | .window r k => s.writeWindow r k v
  | .reserved => s

/-- `MemWrite(a, 4, v)` (R16, R44). -/
def State.busWrite (s : State) (a : Addr) (v : Word) : State := s.writeTarget (busTarget a) v

/-- The command word `w` accepted and its completion next on the agenda (log 5). -/
def State.loadCommand (s : State) (w : Word) : State :=
  { s.accept w with agenda := .engine :: s.agenda }

end Sys2Proof.Machine
end

