-- ==== Sys2Proof/Machine/Crt.lean ====
section
/-! DEFINITION. Chinese-remainder recombination: CRT (45_crt.md). -/

namespace Sys2Proof.Machine

/-- What CRT computes of m1, m2, p, q and qinv at width `w`; q = 0 always fails the range check, and
qinv is not checked (R90). -/
def crtResult (w m1 m2 p q qinv : Nat) : Result :=
  if p = 0 then .err .zeroModulus
  else if p ≤ m1 ∨ q ≤ m2 then .err .range
  else if 2 ^ w ≤ Arith.crtValue m1 m2 p q qinv then .err .overflow
  else .ok (Arith.crtValue m1 m2 p q qinv) false

/-- CRT completes (R90, R70). -/
def execCrt (rd m1 m2 p q qinv : RegIdx) (s : State) : Host.Outcome State Fault Refusal :=
  .next (s.complete rd
    (crtResult s.params.width (s.x m1) (s.x m2) (s.x p) (s.x q) (s.x qinv)))

end Sys2Proof.Machine
end

