-- ==== Sys2Proof/Machine/Gcd.lean ====
section
/-! DEFINITION. Greatest common divisor and modular inverse: GCD, MODINV (43_gcd_modinv.md). -/

namespace Sys2Proof.Machine

/-- What GCD computes of a and b; gcd(a, 0) = a and gcd(0, 0) = 0 (R83, R15). -/
def gcdResult (a b : Nat) : Result := .ok (Nat.gcd a b) false

/-- What MODINV computes of a and m (R84). -/
def modinvResult (a m : Nat) : Result :=
  if m = 0 then .err .zeroModulus
  else if Nat.gcd (a % m) m ≠ 1 then .err .noInverse
  else .ok (Arith.inv a m) false

/-- GCD completes (R83, R70). -/
def execGcd (rd a b : RegIdx) (s : State) : Host.Outcome State Fault Refusal :=
  .next (s.complete rd (gcdResult (s.x a) (s.x b)))

/-- MODINV completes (R84, R70). -/
def execModinv (rd a m : RegIdx) (s : State) : Host.Outcome State Fault Refusal :=
  .next (s.complete rd (modinvResult (s.x a) (s.x m)))

end Sys2Proof.Machine
end

