-- ==== Sys2Proof/Machine/MillerRabin.lean ====
section
/-! DEFINITION. One Miller-Rabin witness round: MRWIT (44_miller_rabin.md). -/

namespace Sys2Proof.Machine

/-- What MRWIT computes of candidate x and witness a: the verdict, in the result and in the flag. The
witness is neither reduced nor range-checked first (R87). -/
def mrwitResult (x a : Nat) : Result :=
  if x = 0 then .err .zeroModulus
  else if x % 2 = 0 then .err .evenModulus
  else if x < 3 then .err .range
  else if Arith.witnessVerdict x a then .ok 1 true
  else .ok 0 false

/-- MRWIT completes (R87, R70). -/
def execMrwit (rd x a : RegIdx) (s : State) : Host.Outcome State Fault Refusal :=
  .next (s.complete rd (mrwitResult (s.x x) (s.x a)))

end Sys2Proof.Machine
end

