-- ==== Sys2Proof/Machine/ModExp.lean ====
section
/-! DEFINITION. Modular exponentiation: MODEXP (42_modexp.md). -/

namespace Sys2Proof.Machine

/-- What MODEXP computes of base g, exponent e and modulus m (R80). An even modulus is refused with
EVEN_MODULUS (R82). -/
def modexpResult (g e m : Nat) : Result :=
  if m = 0 then .err .zeroModulus
  else if m % 2 = 0 then .err .evenModulus
  else .ok (Arith.powMod g e m) false

/-- MODEXP completes (R80, R70). -/
def execModexp (rd base exp m : RegIdx) (s : State) : Host.Outcome State Fault Refusal :=
  .next (s.complete rd (modexpResult (s.x base) (s.x exp) (s.x m)))

end Sys2Proof.Machine
end

