-- ==== Sys2Proof/Machine/ModMul.lean ====
section
/-! DEFINITION. Modular reduction and multiplication: MODRED, MODMUL, MONTMUL (41_modmul.md). -/

namespace Sys2Proof.Machine

/-- What MODRED computes of a and m (R75). -/
def modredResult (a m : Nat) : Result :=
  if m = 0 then .err .zeroModulus else .ok (a % m) false

/-- What MODMUL computes of a, b and m: the exact product reduced (R76). -/
def modmulResult (a b m : Nat) : Result :=
  if m = 0 then .err .zeroModulus else .ok (a * b % m) false

/-- What MONTMUL computes of a, b and m at width `w` (R77, R11). -/
def montmulResult (w a b m : Nat) : Result :=
  if m = 0 then .err .zeroModulus
  else if m % 2 = 0 then .err .evenModulus
  else if m ≤ a ∨ m ≤ b then .err .range
  else .ok (Arith.montmul w a b m) false

/-- MODRED completes (R75, R70). -/
def execModred (rd a m : RegIdx) (s : State) : Host.Outcome State Fault Refusal :=
  .next (s.complete rd (modredResult (s.x a) (s.x m)))

/-- MODMUL completes (R76, R70). -/
def execModmul (rd a b m : RegIdx) (s : State) : Host.Outcome State Fault Refusal :=
  .next (s.complete rd (modmulResult (s.x a) (s.x b) (s.x m)))

/-- MONTMUL completes (R77, R70). -/
def execMontmul (rd a b m : RegIdx) (s : State) : Host.Outcome State Fault Refusal :=
  .next (s.complete rd (montmulResult s.params.width (s.x a) (s.x b) (s.x m)))

end Sys2Proof.Machine
end

