-- ==== Sys2Proof/Machine/Dispatch.lean ====
section
/-! DEFINITION. The completion of each command: one arm per constructor of Instr (R69, R70). -/

namespace Sys2Proof.Machine

/-- The engine completes the command `i` in state `s` (R69, R70). `step` calls it while BUSY only
(log 18). -/
def exec (i : Instr) (s : State) : Host.Outcome State Fault Refusal :=
  match i with
  | .modred rd a m => Sys2Proof.Machine.execModred rd a m s
  | .modmul rd a b m => Sys2Proof.Machine.execModmul rd a b m s
  | .montmul rd a b m => Sys2Proof.Machine.execMontmul rd a b m s
  | .modexp rd base exp m => Sys2Proof.Machine.execModexp rd base exp m s
  | .mrwit rd x a => Sys2Proof.Machine.execMrwit rd x a s
  | .gcd rd a b => Sys2Proof.Machine.execGcd rd a b s
  | .modinv rd a m => Sys2Proof.Machine.execModinv rd a m s
  | .crt rd m1 m2 p q qinv => Sys2Proof.Machine.execCrt rd m1 m2 p q qinv s

end Sys2Proof.Machine
end

