-- ==== Sys2Proof/Machine/Engine.lean ====
section
/-! DEFINITION. The engine's turn and the next event: which agent acts, and what it does (R66 to R71). -/

namespace Sys2Proof.Machine

/-- The engine's turn: while BUSY it completes the command word in CMD, an illegal word with
ILLEGAL_CMD (R60, R69, R70; log 12); while IDLE it does nothing (R66, R107; log 8). -/
def engineTurn (s : State) : Host.Outcome State Fault Refusal :=
  match s.phase with
  | .idle => .next s
  | .busy =>
    match decode s.cmd with
    | .ok i => exec i s
    | .error _ => .next (s.completeErr .illegalCmd)

/-- The state in which the first event of the agenda is being handled. -/
def State.popEvent (s : State) : State := { s with agenda := s.agenda.tail }

/-- The next event. The first of the agenda happens; a host that waits leaves the turn to the engine
until its condition holds (R50, R64, R112; log 6); with an empty agenda the engine has its turn, so that no
accepted command stays BUSY for ever (R71; log 2). -/
def nextEvent (s : State) : Host.Outcome State Fault Refusal :=
  match s.agenda with
  | [] => engineTurn s
  | .engine :: _ => engineTurn s.popEvent
  | .read a :: _ => .next (s.popEvent.busRead a)
  | .write a v :: _ => .next (s.popEvent.busWrite a v)
  | .reset :: _ => .next s.popEvent.applyReset
  | .waitIdle :: _ => if s.busy then engineTurn s else .next (s.popEvent.busRead 0x00C#16)
  | .waitIrq :: _ => if s.irq then .next s.popEvent else engineTurn s

end Sys2Proof.Machine
end

