-- ==== Sys2Proof/Machine/Step.lean ====
section
/-! DEFINITION. The machine's step, and how a command word is placed to run next. -/

namespace Sys2Proof.Machine

/-- One step: one event of the single order of R48, R66 and R98. -/
def step (s : State) : Host.Outcome State Fault Refusal := nextEvent s

/-- `s` with the command word `w` of `nbits` bits accepted and its completion as the very next event.
The core has no fetch (R20): a command starts from the CMD write alone (R52, R67; log 5). -/
def State.withFetchWord (s : State) (nbits w : Nat) : State := s.loadCommand (wordOfTable nbits w)

end Sys2Proof.Machine
end

