-- ==== Sys2Proof/Machine/HostProgram.lean ====
section
/-! DEFINITION. The host pseudo-instructions of R64 as agendas. Addresses are offsets from CORE_BASE
(R39, log 7). -/

namespace Sys2Proof.Machine

/-- The writes of the words `ws` to consecutive window words of `r` from word `k` on. -/
def writesFrom (r : RegIdx) : (k : Nat) → List Word → List Event
  | _, [] => []
  | k, w :: ws => .write (windowAddr r k) w :: writesFrom r (k + 1) ws

/-- `setx xr, n`: every word of the register's window is written, word 0 first (R64, R115). -/
def setx (p : Params) (r : RegIdx) (n : Nat) : List Event := writesFrom r 0 (operandOfNat p.words n)

/-- `getx xr`: every word of the register's window is read (R64). -/
def getx (p : Params) (r : RegIdx) : List Event :=
  (List.range p.words).map fun k => .read (windowAddr r k)

/-- `issue <command>`: a write of its word to CMD (R64). -/
def issue (i : Instr) : List Event := [.write 0x008#16 (encode i)]

/-- `issue .word v` (R62, R64). -/
def issueWord (v : Word) : List Event := [.write 0x008#16 v]

/-- `wait`: poll STATUS until BUSY reads 0 (R64; log 6). -/
def wait : List Event := [.waitIdle]

/-- `clrst`: clear DONE, ERR, OVR and ACCV (R64). -/
def clrst : List Event := [.write 0x00C#16 0x00000036#32]

/-- `run <command>`: `issue` then `wait` (R64). -/
def runCommand (i : Instr) : List Event := issue i ++ wait

end Sys2Proof.Machine
end

