-- ==== Sys2Proof/Machine/Reference.lean ====
section
/-! DEFINITION. The methods the spec names as ones a conforming block may use inside (R79, R81). The
machine does not run them: their results equal those of the rules, which is stated, not assumed
(log 10, log 14). -/

namespace Sys2Proof.Machine.Reference

/-- The loop of R81 from bit `n − 1` of the exponent down to bit 0, in the Montgomery domain. -/
def montExpLoop (w gm e m : Nat) : (n acc : Nat) → Nat
  | 0, acc => acc
  | n + 1, acc =>
    let sq := Arith.montmul w acc acc m
    montExpLoop w gm e m n (if e.testBit n then Arith.montmul w sq gm m else sq)

/-- The reference method of R81 for odd m ≥ 3: enter the domain, left-to-right square and multiply over
the W bits of the exponent, leave the domain. -/
def montExp (w g e m : Nat) : Nat :=
  let rr := 2 ^ (2 * w) % m
  Arith.montmul w (montExpLoop w (Arith.montmul w (g % m) rr m) e m w (Arith.montmul w 1 rr m)) 1 m

/-- A fixed-window loop over `n` digits of `win` bits, from digit `n − 1` down to digit 0 (R81). -/
def windowExpLoop (win g e m : Nat) : (n acc : Nat) → Nat
  | 0, acc => acc
  | n + 1, acc =>
    windowExpLoop win g e m n (acc ^ 2 ^ win * (g ^ (e / 2 ^ (win * n) % 2 ^ win) % m) % m)

/-- Fixed-window exponentiation over `n` digits (R81, R9). -/
def windowExp (win n g e m : Nat) : Nat := windowExpLoop win g e m n (1 % m)

/-- `n` digits of the word-serial reduction of R79 with 32-bit digits: add a_i·b, add u·m with u chosen to
clear the low digit, shift. `mneg` is −m⁻¹ mod 2^32. -/
def serialLoop (b m mneg : Nat) : (n a t : Nat) → Nat
  | 0, _, t => t
  | n + 1, a, t =>
    let t1 := t + a % 2 ^ 32 * b
    let u := t1 % 2 ^ 32 * mneg % 2 ^ 32
    serialLoop b m mneg n (a / 2 ^ 32) ((t1 + u * m) / 2 ^ 32)

/-- The word-serial Montgomery product of R79 over `words` digits: the loop, then m subtracted once if
the sum is at least m. -/
def montSerial (words a b m : Nat) : Nat :=
  let t := serialLoop b m (2 ^ 32 - Arith.inv m (2 ^ 32)) words a 0
  if m ≤ t then t - m else t

end Sys2Proof.Machine.Reference
end

