-- ==== Sys2Proof/Safety.lean ====
section
/-! DEFINITION. The terms claims are stated in: the invariant of the machine, and what it means for a
command to have completed, with and without error, and for the block to have been reset. -/

namespace Sys2Proof.Machine

/-- Every operand register has W/32 words, so it holds a number below 2^W (R7, R21). -/
def State.WellSized (s : State) : Prop := ∀ r : RegIdx, (s.reg r).length = s.params.words

/-- What holds of every state a run reaches. -/
structure State.Inv (s : State) : Prop where
  /-- Registers are W bits wide (R21). -/
  sized : s.WellSized
  /-- While BUSY, DONE, ERR and FLAG are 0: an accepted command cleared them (R67). -/
  busy_clear : s.phase = .busy → s.done = false ∧ s.err = false ∧ s.flag = false
  /-- ERR is 1 exactly when ECODE is not NONE (R31). -/
  err_iff : s.err = true ↔ s.ecode ≠ .none
  /-- FLAG is 0 after an error (R32). -/
  flag_no_err : s.flag = true → s.err = false
  /-- FLAG is 1 only after an MRWIT command, whose word CMD still reads (R27, R32). -/
  flag_mrwit : s.flag = true → ∃ rd x a, decode s.cmd = .ok (.mrwit rd x a)

/-- What a completion leaves as it was, beside the registers (R70). -/
structure Unchanged (s t : State) : Prop where
  params : t.params = s.params
  cmd : t.cmd = s.cmd
  ovr : t.ovr = s.ovr
  accv : t.accv = s.accv
  irqEn : t.irqEn = s.irqEn
  agenda : t.agenda = s.agenda
  reads : t.reads = s.reads

/-- From `s` a command completed successfully in `t`, with result `v` in `rd` and flag `f`; every other
register, OVR, ACCV, CTRL and CMD are unchanged (R70). -/
structure CompletedOk (s t : State) (rd : RegIdx) (v : Nat) (f : Bool) : Prop where
  result : t.x rd = v
  width : (t.reg rd).length = s.params.words
  others : ∀ r, r ≠ rd → t.reg r = s.reg r
  flag : t.flag = f
  err : t.err = false
  ecode : t.ecode = .none
  done : t.done = true
  phase : t.phase = .idle
  unchanged : Unchanged s t

/-- From `s` a command ended in `t` with error `c`: no operand register is written (R70, R94). -/
structure CompletedErr (s t : State) (c : ErrCode) : Prop where
  regs : ∀ r, t.reg r = s.reg r
  flag : t.flag = false
  err : t.err = true
  ecode : t.ecode = c
  done : t.done = true
  phase : t.phase = .idle
  unchanged : Unchanged s t

/-- `t` is `s` after reset: every value of R36's table, ID and PARAM as before. -/
structure ResetOf (s t : State) : Prop where
  regs : ∀ r, t.reg r = List.replicate s.params.words 0#32
  phase : t.phase = .idle
  cmd : t.busPeek 0x008#16 = 0#32
  status : t.busPeek 0x00C#16 = 0#32
  ctrl : t.busPeek 0x010#16 = 0#32
  irq : t.irq = false
  id : t.busPeek 0x000#16 = s.busPeek 0x000#16
  param : t.busPeek 0x004#16 = s.busPeek 0x004#16
  params : t.params = s.params

/-- `t` is reached from `s` in exactly `n` steps, each giving a next state. -/
def Reaches : Nat → State → State → Prop
  | 0, s, t => t = s
  | n + 1, s, t => ∃ u, step s = .next u ∧ Reaches n u t

/-- The events that reset the block: the reset input, or a CTRL write with bit 1 set (R108, R109). -/
def Event.resets : Event → Bool
  | .reset => true
  | .write a v => decide (busTarget a = .ctrl) && v[1]
  | .read _ => false
  | .engine => false
  | .waitIdle => false
  | .waitIrq => false

/-- A STATUS write with bit `j` set (R28). -/
def Event.clearsStatusBit (j : Nat) : Event → Bool
  | .write a v => decide (busTarget a = .status) && v.getLsbD j
  | .reset => false
  | .read _ => false
  | .engine => false
  | .waitIdle => false
  | .waitIrq => false

/-- The next step is the engine's turn on the command in CMD: the agenda is empty, or its head leaves the
turn to the engine (R50, R66, R71). `rest` is the agenda the completion leaves. -/
def State.EnginesTurn (s : State) (rest : List Event) : Prop :=
  s.phase = .busy ∧
    ((s.agenda = [] ∧ rest = []) ∨ s.agenda = .engine :: rest ∨
      (∃ l, s.agenda = .waitIdle :: l ∧ rest = s.agenda) ∨
      (∃ l, s.agenda = .waitIrq :: l ∧ s.irq = false ∧ rest = s.agenda))

/-- The error codes each command can raise once it has decoded (R93). -/
def mayRaise : Instr → List ErrCode
  | .modred .. => [.zeroModulus]
  | .modmul .. => [.zeroModulus]
  | .montmul .. => [.zeroModulus, .evenModulus, .range]
  | .modexp .. => [.zeroModulus, .evenModulus]
  | .mrwit .. => [.zeroModulus, .evenModulus, .range]
  | .gcd .. => []
  | .modinv .. => [.zeroModulus, .noInverse]
  | .crt .. => [.zeroModulus, .range, .overflow]

end Sys2Proof.Machine
end

