-- ==== Sys2Proof/Certificates/Slice0/Obligations.lean ====
section
/-! DEFINITION. The statements for the provers. Each docstring names the rule of spec/ it formalises, or
says that it is derived. -/

open Sys2Proof Sys2Proof.Machine

/-! ## Reset -/

/-- R36: after hardware reset and after soft reset, from any state, and in the state after reset of any
configuration, every piece of state has the value of the table. -/
def Obligations.ResetLeavesTheTableOfResetValues : Prop :=
  (∀ (s : State) (l : List Event), s.agenda = .reset :: l →
    ∃ t, step s = .next t ∧ ResetOf s t ∧ t.agenda = l) ∧
  (∀ (s : State) (a : Addr) (v : Word) (l : List Event), s.agenda = .write a v :: l →
    busTarget a = .ctrl → v[1] = true →
    ∃ t, step s = .next t ∧ ResetOf s t ∧ t.agenda = l) ∧
  (∀ p : Params, ResetOf (State.resetOf p) (State.resetOf p) ∧
    ∀ r, (State.resetOf p).x r = 0)

/-- R109: a CTRL write with bit 1 = 1 has exactly the effect of hardware reset, at any time, and SRST
reads 0. -/
def Obligations.SoftResetIsHardwareReset : Prop :=
  (∀ (s : State) (a : Addr) (v : Word) (l : List Event), s.agenda = .write a v :: l →
    busTarget a = .ctrl → v[1] = true →
    step s = step { s with agenda := .reset :: l }) ∧
  (∀ s : State, (s.busPeek 0x010#16)[1] = false)

/-- Derived from R108, R110: reset during a command abandons it. Even if the engine has a turn at once
after the reset, no register is written, DONE stays 0 and irq stays deasserted. -/
def Obligations.ResetAbandonsTheCommand : Prop :=
  ∀ (s : State) (l : List Event), s.phase = .busy → s.agenda = .reset :: .engine :: l →
    ∃ t, Reaches 2 s t ∧ t.phase = .idle ∧ (∀ r, t.x r = 0) ∧ t.done = false ∧ t.irq = false ∧
      t.agenda = l

/-! ## Control and status registers -/

/-- R25, R26: what ID and PARAM read, that writes to them are ignored, and that neither reset nor any other
step changes them. -/
def Obligations.IdAndParamReadTheConfiguration : Prop :=
  ∀ s : State,
    s.busPeek 0x000#16 = 0x50525341#32 ∧
    ((s.busPeek 0x004#16).extractLsb' 0 16).toNat = s.params.width / 32 ∧
    2 ≤ s.params.width / 32 ∧ s.params.width / 32 ≤ 256 ∧
    ((s.busPeek 0x004#16).extractLsb' 16 4).toNat = 15 ∧
    ((s.busPeek 0x004#16).extractLsb' 20 4).toNat = s.params.win ∧
    1 ≤ s.params.win ∧ s.params.win ≤ 6 ∧
    ((s.busPeek 0x004#16).extractLsb' 24 8).toNat = 1 ∧
    s.applyReset.busPeek 0x000#16 = s.busPeek 0x000#16 ∧
    s.applyReset.busPeek 0x004#16 = s.busPeek 0x004#16 ∧
    (∀ v : Word, s.busWrite 0x000#16 v = s ∧ s.busWrite 0x004#16 v = s) ∧
    ∀ t, step s = .next t → t.params = s.params ∧ t.busPeek 0x000#16 = s.busPeek 0x000#16 ∧
      t.busPeek 0x004#16 = s.busPeek 0x004#16

/-- R29: BUSY reads 1 exactly when the phase is BUSY; an accepted CMD write sets it, completion and reset
clear it, and nothing else changes it. -/
def Obligations.BusyIsSetByIssueAndClearedByCompletionOrReset : Prop :=
  (∀ s : State, (s.busPeek 0x00C#16)[0] = true ↔ s.phase = .busy) ∧
  (∀ (s : State) (a : Addr) (w : Word) (l : List Event), s.agenda = .write a w :: l →
    busTarget a = .cmd → ∃ t, step s = .next t ∧ t.phase = .busy) ∧
  (∀ (s : State) (rest : List Event), s.EnginesTurn rest → ∃ t, step s = .next t ∧ t.phase = .idle) ∧
  (∀ (s : State) (e : Event) (l : List Event), s.agenda = e :: l → e.resets = true →
    ∃ t, step s = .next t ∧ t.phase = .idle) ∧
  (∀ s t : State, step s = .next t → s.phase = .idle → t.phase = .busy →
    ∃ a w l, s.agenda = .write a w :: l ∧ busTarget a = .cmd) ∧
  (∀ s t : State, step s = .next t → s.phase = .busy → t.phase = .idle →
    (∃ rest, s.EnginesTurn rest) ∨ ∃ e l, s.agenda = e :: l ∧ e.resets = true)

/-- Derived from R31: every completion leaves ERR 1 with an error code or ERR 0 with NONE; an accepted CMD
write, a STATUS write with bit 2 = 1 and reset clear both together; nothing else changes either. -/
def Obligations.ErrAndEcodeRecordTheLastCompletion : Prop :=
  (∀ (s : State) (rest : List Event), s.EnginesTurn rest → ∃ t, step s = .next t ∧
    ((t.err = false ∧ t.ecode = .none) ∨ (t.err = true ∧ t.ecode ≠ .none))) ∧
  (∀ (s : State) (w : Word) (l : List Event), s.agenda = .write 0x008#16 w :: l → s.phase = .idle →
    ∃ t, step s = .next t ∧ t.err = false ∧ t.ecode = .none) ∧
  (∀ s t : State, step s = .next t →
    (∃ e l, s.agenda = e :: l ∧ (e.clearsStatusBit 2 = true ∨ e.resets = true)) →
    t.err = false ∧ t.ecode = .none) ∧
  (∀ s t : State, step s = .next t → t.err ≠ s.err ∨ t.ecode ≠ s.ecode →
    (s.phase = .busy ∧ t.phase = .idle) ∨ (s.phase = .idle ∧ t.phase = .busy) ∨
      ∃ e l, s.agenda = e :: l ∧ (e.clearsStatusBit 2 = true ∨ e.resets = true))

/-- Derived from R28: the layout STATUS reads, what a STATUS write clears, and the reset value. That a
STATUS write acts while BUSY as it does while IDLE is the model's deduction (log 17). -/
def Obligations.StatusFieldsAndWriteOneToClear : Prop :=
  (∀ s : State,
    ((s.busPeek 0x00C#16)[0] = true ↔ s.phase = .busy) ∧
    (s.busPeek 0x00C#16)[1] = s.done ∧
    (s.busPeek 0x00C#16)[2] = s.err ∧
    (s.busPeek 0x00C#16)[3] = s.flag ∧
    (s.busPeek 0x00C#16)[4] = s.ovr ∧
    (s.busPeek 0x00C#16)[5] = s.accv ∧
    (s.busPeek 0x00C#16).extractLsb' 6 2 = 0#2 ∧
    (s.busPeek 0x00C#16).extractLsb' 8 4 = s.ecode.bits ∧
    (s.busPeek 0x00C#16).extractLsb' 12 20 = 0#20) ∧
  (∀ (s : State) (v : Word) (l : List Event), s.agenda = .write 0x00C#16 v :: l →
    ∃ t, step s = .next t ∧
      t.done = (s.done && !v[1]) ∧ t.err = (s.err && !v[2]) ∧
      t.ecode = (if v[2] then .none else s.ecode) ∧
      t.ovr = (s.ovr && !v[4]) ∧ t.accv = (s.accv && !v[5]) ∧
      t.flag = s.flag ∧ t.phase = s.phase ∧ t.cmd = s.cmd ∧ t.irqEn = s.irqEn ∧
      t.regs = s.regs ∧ t.params = s.params ∧ t.agenda = l ∧ t.reads = s.reads) ∧
  (∀ p : Params, (State.resetOf p).busPeek 0x00C#16 = 0#32)

/-- R35: CTRL. A write with bit 1 = 0 sets IRQ_EN to bit 0 and changes nothing else; one with bit 1 = 1
resets, leaving IRQ_EN 0 whatever bit 0 is; both also while BUSY. CTRL reads IRQ_EN and zeros. -/
def Obligations.CtrlWriteSetsEnableOrResets : Prop :=
  (∀ (s : State) (v : Word) (l : List Event), s.agenda = .write 0x010#16 v :: l →
    v[1] = false → step s = .next { s with irqEn := v[0], agenda := l }) ∧
  (∀ (s : State) (v : Word) (l : List Event), s.agenda = .write 0x010#16 v :: l →
    v[1] = true → ∃ t, step s = .next t ∧ ResetOf s t ∧ t.irqEn = false) ∧
  (∀ s : State, (s.busPeek 0x010#16)[0] = s.irqEn ∧
    (s.busPeek 0x010#16).extractLsb' 1 31 = 0#31) ∧
  (∀ p : Params, (State.resetOf p).busPeek 0x010#16 = 0#32)

/-- R45: accesses to reserved addresses and to the reserved bits of registers read 0 and ignore writes,
with no error, no STATUS bit and no interrupt. -/
def Obligations.ReservedAddressesAndBitsReadZeroAndIgnoreWrites : Prop :=
  (∀ (s : State) (a : Addr) (l : List Event),
    (0x0014 ≤ a.toNat ∧ a.toNat < 0x1000) ∨ 0x5000 ≤ a.toNat →
    (s.agenda = .read a :: l →
      step s = .next { s with agenda := l, reads := 0#32 :: s.reads }) ∧
    (∀ v, s.agenda = .write a v :: l → step s = .next { s with agenda := l })) ∧
  (∀ s : State, s.busPeek 0x00C#16 &&& 0xFFFFF0C0#32 = 0#32 ∧
    s.busPeek 0x010#16 &&& 0xFFFFFFFE#32 = 0#32) ∧
  (∀ (s : State) (v : Word), s.busWrite 0x00C#16 v = s.busWrite 0x00C#16 (v &&& 0x00000036#32) ∧
    s.busWrite 0x010#16 v = s.busWrite 0x010#16 (v &&& 0x00000003#32))

/-- R30: DONE is set by every completion and by nothing else; it is cleared by an accepted CMD write, a
STATUS write with bit 1 = 1, and reset, and by nothing else. -/
def Obligations.DoneIsSetByCompletionOnly : Prop :=
  (∀ (i : Instr) (s t : State), exec i s = .next t → t.done = true) ∧
  (∀ (s : State) (rest : List Event), s.EnginesTurn rest → ∃ t, step s = .next t ∧ t.done = true) ∧
  (∀ s t : State, step s = .next t → s.done = false → t.done = true →
    s.phase = .busy ∧ t.phase = .idle) ∧
  (∀ s t : State, step s = .next t → s.done = true → t.done = false →
    (s.phase = .idle ∧ t.phase = .busy) ∨
      ∃ e l, s.agenda = e :: l ∧ (e.clearsStatusBit 1 = true ∨ e.resets = true)) ∧
  (∀ s t : State, step s = .next t →
    (∃ e l, s.agenda = e :: l ∧ (e.clearsStatusBit 1 = true ∨ e.resets = true)) → t.done = false) ∧
  (∀ (s : State) (v : Word) (l : List Event), s.agenda = .write 0x008#16 v :: l → s.phase = .idle →
    ∃ t, step s = .next t ∧ t.done = false)

/-- Derived from R33: OVR is set when the host writes CMD while BUSY, and only then; it is sticky: only a
STATUS write with bit 4 = 1 or reset clears it. That the STATUS write clears it while BUSY as well is the
model's deduction (log 17). -/
def Obligations.OverrunIsSetByADroppedCommandAndSticky : Prop :=
  (∀ (s : State) (a : Addr) (v : Word) (l : List Event), s.agenda = .write a v :: l →
    busTarget a = .cmd → s.phase = .busy → step s = .next { s with ovr := true, agenda := l }) ∧
  (∀ s t : State, step s = .next t → s.ovr = false → t.ovr = true →
    s.phase = .busy ∧ ∃ a v l, s.agenda = .write a v :: l ∧ busTarget a = .cmd) ∧
  (∀ s t : State, step s = .next t → s.ovr = true → t.ovr = false →
    ∃ e l, s.agenda = e :: l ∧ (e.clearsStatusBit 4 = true ∨ e.resets = true)) ∧
  (∀ s t : State, step s = .next t → (∃ e l, s.agenda = e :: l ∧ (e.clearsStatusBit 4 = true ∨ e.resets = true)) →
    t.ovr = false)

/-- Derived from R34: ACCV is set when the host reads or writes any address in the operand windows while
BUSY; such a write is dropped and such a read returns 0. It is sticky: only a STATUS write with bit 5 = 1
or reset clears it. That the STATUS write clears it while BUSY as well is the model's deduction (log 17). -/
def Obligations.WindowAccessWhileBusyIsRefused : Prop :=
  (∀ (s : State) (a : Addr) (l : List Event), s.phase = .busy →
    0x1000 ≤ a.toNat → a.toNat < 0x5000 →
    (s.agenda = .read a :: l →
      step s = .next { s with accv := true, agenda := l, reads := 0#32 :: s.reads }) ∧
    (∀ v, s.agenda = .write a v :: l → step s = .next { s with accv := true, agenda := l })) ∧
  (∀ s t : State, step s = .next t → s.accv = true → t.accv = false →
    ∃ e l, s.agenda = e :: l ∧ (e.clearsStatusBit 5 = true ∨ e.resets = true)) ∧
  (∀ s t : State, step s = .next t → (∃ e l, s.agenda = e :: l ∧ (e.clearsStatusBit 5 = true ∨ e.resets = true)) →
    t.accv = false)

/-- R32: FLAG. At successful completion of MRWIT it is the verdict written to rd, at any other completion
0; an accepted CMD write and reset clear it, and nothing else changes it. -/
def Obligations.FlagIsTheMrwitVerdictOnly : Prop :=
  (∀ (i : Instr) (s t : State), s.WellSized → exec i s = .next t →
    (t.flag = true ↔ (∃ rd x a, i = .mrwit rd x a) ∧ t.err = false ∧ t.x i.dest = 1)) ∧
  (∀ (s : State) (rd x a : RegIdx) (t : State), s.WellSized → exec (.mrwit rd x a) s = .next t →
    t.err = false → t.x rd = t.flag.toNat) ∧
  (∀ (s t : State) (v : Word) (l : List Event), s.agenda = .write 0x008#16 v :: l → s.phase = .idle →
    step s = .next t → t.flag = false) ∧
  (∀ (s t : State) (rest : List Event) (e : Illegal), s.EnginesTurn rest → decode s.cmd = .error e →
    step s = .next t → t.flag = false) ∧
  (∀ s t : State, step s = .next t → (∃ e l, s.agenda = e :: l ∧ e.resets = true) →
    t.flag = false) ∧
  (∀ s t : State, step s = .next t → t.flag ≠ s.flag →
    (s.phase = .busy ∧ t.phase = .idle) ∨ (s.phase = .idle ∧ t.phase = .busy ∧ t.flag = false) ∨
      (∃ e l, s.agenda = e :: l ∧ e.resets = true ∧ t.flag = false))

/-! ## The bus and the operand windows -/

/-- R44: address bits [1:0] are ignored, so an access at address a acts on the word at a with bits [1:0]
cleared. -/
def Obligations.AddressLowBitsAreIgnored : Prop :=
  ∀ (s : State) (a : Addr) (v : Word) (l : List Event),
    step { s with agenda := .read a :: l } = step { s with agenda := .read (a &&& 0xFFFC#16) :: l } ∧
    step { s with agenda := .write a v :: l } =
      step { s with agenda := .write (a &&& 0xFFFC#16) v :: l }

/-- Derived from R46 and R24: no read has a side effect except a window read while BUSY, which sets ACCV;
the word returned is the one the address shows. -/
def Obligations.OnlyABusyWindowReadHasASideEffect : Prop :=
  ∀ (s : State) (a : Addr) (l : List Event), s.agenda = .read a :: l →
    step s = .next { s with
      accv := s.accv || (s.busy && decide (0x1000 ≤ a.toNat ∧ a.toNat < 0x5000))
      agenda := l
      reads := s.busPeek a :: s.reads }

/-- R41: host read of an operand window word. -/
def Obligations.WindowReadReturnsTheWord : Prop :=
  ∀ (s : State) (r : RegIdx) (k : Nat) (l : List Event), k ≤ 255 →
    s.agenda = .read (windowAddr r k) :: l →
    (s.phase = .busy →
      step s = .next { s with accv := true, agenda := l, reads := 0#32 :: s.reads }) ∧
    (s.phase = .idle → s.params.width / 32 ≤ k →
      step s = .next { s with agenda := l, reads := 0#32 :: s.reads }) ∧
    (s.phase = .idle → k < s.params.width / 32 →
      ∃ w : Word, w.toNat = s.x r / 2 ^ (32 * k) % 2 ^ 32 ∧
        step s = .next { s with agenda := l, reads := w :: s.reads })

/-- R42: host write of an operand window word. While IDLE, for k < W/32, bits 32k+31 to 32k of the
register become v and every other bit of every register is unchanged. -/
def Obligations.WindowWriteReplacesTheWord : Prop :=
  ∀ (s : State) (r : RegIdx) (k : Nat) (v : Word) (l : List Event), s.WellSized → k ≤ 255 →
    s.agenda = .write (windowAddr r k) v :: l →
    (s.phase = .busy → step s = .next { s with accv := true, agenda := l }) ∧
    (s.phase = .idle → s.params.width / 32 ≤ k → step s = .next { s with agenda := l }) ∧
    (s.phase = .idle → k < s.params.width / 32 →
      ∃ t, step s = .next t ∧
        (∀ i, (t.x r).testBit i =
          if 32 * k ≤ i ∧ i < 32 * k + 32 then v.getLsbD (i - 32 * k) else (s.x r).testBit i) ∧
        (∀ r', r' ≠ r → t.reg r' = s.reg r') ∧ (t.reg r).length = s.params.width / 32 ∧
        t = { s with regs := t.regs, agenda := l })

/-- R40: the window of xr. Word k at WA(r, k) = 0x1000 + 0x400·r + 4·k shows bits 32k+31 to 32k; byte i of
the window, in lane i mod 4 of its word, shows bits 8i+7 to 8i; words from W/32 on are RAZ/WI. -/
def Obligations.WindowIsLittleEndian : Prop :=
  ∀ (s : State) (r : RegIdx), s.WellSized → s.phase = .idle →
    (∀ k, k < s.params.width / 32 →
      (s.busPeek (BitVec.ofNat 16 (0x1000 + 0x400 * r.val + 4 * k))).toNat =
        s.x r / 2 ^ (32 * k) % 2 ^ 32) ∧
    (∀ i, i < s.params.width / 8 →
      ((s.busPeek (BitVec.ofNat 16 (0x1000 + 0x400 * r.val + i))).extractLsb' (8 * (i % 4)) 8).toNat =
        s.x r / 2 ^ (8 * i) % 2 ^ 8) ∧
    (∀ k v, s.params.width / 32 ≤ k → k ≤ 255 →
      s.busPeek (BitVec.ofNat 16 (0x1000 + 0x400 * r.val + 4 * k)) = 0#32 ∧
      s.busWrite (BitVec.ofNat 16 (0x1000 + 0x400 * r.val + 4 * k)) v = s)

/-- Derived from R64, R42, R115: while IDLE, `setx xr, n` leaves n in xr, whatever was there, in W/32
writes, and changes nothing else. -/
def Obligations.SetxLoadsTheRegister : Prop :=
  ∀ (s : State) (r : RegIdx) (n : Nat) (l : List Event), s.WellSized → s.phase = .idle →
    n < 2 ^ s.params.width → s.agenda = setx s.params r n ++ l →
    ∃ t, Reaches (s.params.width / 32) s t ∧ t.x r = n ∧ (∀ r', r' ≠ r → t.reg r' = s.reg r') ∧
      t = { s with regs := t.regs, agenda := l }

/-- Derived from R64, R41: while IDLE, the words `getx xr` reads are the register's value, word 0 first,
and the block is unchanged. -/
def Obligations.GetxReadsTheRegister : Prop :=
  ∀ (s : State) (r : RegIdx) (l : List Event), s.WellSized → s.phase = .idle →
    s.agenda = getx s.params r ++ l →
    ∃ (t : State) (ws : List Word), Reaches (s.params.width / 32) s t ∧
      ws.length = s.params.width / 32 ∧ operandValue ws = s.x r ∧
      t = { s with agenda := l, reads := ws.reverse ++ s.reads }

/-! ## Issue, execution and completion -/

/-- R67: an accepted CMD write, for every word, legal or not; and CMD reads the accepted word. -/
def Obligations.CmdWriteWhileIdleIsAccepted : Prop :=
  (∀ (s : State) (w : Word) (l : List Event), s.phase = .idle → s.agenda = .write 0x008#16 w :: l →
    step s = .next { s with
      cmd := w
      phase := .busy
      done := false
      err := false
      ecode := .none
      flag := false
      agenda := l }) ∧
  (∀ s : State, s.busPeek 0x008#16 = s.cmd)

/-- R68: a CMD write while BUSY changes nothing but STATUS.OVR; the executing command is unaffected. -/
def Obligations.CmdWriteWhileBusyIsDropped : Prop :=
  ∀ (s : State) (w : Word) (l : List Event), s.phase = .busy → s.agenda = .write 0x008#16 w :: l →
    step s = .next { s with ovr := true, agenda := l } ∧
    ∀ t, step s = .next t → t.cmd = s.cmd ∧ t.phase = .busy ∧ t.regs = s.regs

/-- Derived from R69, R70: when the engine has its turn on a command word that decodes, the step is that
command's completion, on the state without the engine's event. -/
def Obligations.AStepRunsTheDecodedCommand : Prop :=
  ∀ (s : State) (rest : List Event) (i : Instr), s.EnginesTurn rest → decode s.cmd = .ok i →
    step s = exec i { s with agenda := rest }

/-- R60: the illegal words, and what they do: accepted while IDLE, they complete with ILLEGAL_CMD, no
operand register is read or written, and CMD reads the word. -/
def Obligations.IllegalWordsCompleteWithIllegalCmd : Prop :=
  (∀ w : Word, (∃ e, decode w = .error e) ↔
    (w.extractLsb' 0 8 = 0#8 ∨ 0x09#8 ≤ w.extractLsb' 0 8 ∨
      ((w.extractLsb' 0 8 = 1#8 ∨ w.extractLsb' 0 8 = 5#8 ∨ w.extractLsb' 0 8 = 6#8 ∨
        w.extractLsb' 0 8 = 7#8) ∧ w.extractLsb' 20 12 ≠ 0#12) ∨
      ((w.extractLsb' 0 8 = 2#8 ∨ w.extractLsb' 0 8 = 3#8 ∨ w.extractLsb' 0 8 = 4#8) ∧
        w.extractLsb' 24 8 ≠ 0#8))) ∧
  (∀ (s : State) (w : Word) (e : Illegal) (l : List Event), decode w = .error e → s.phase = .idle →
    s.agenda = .write 0x008#16 w :: .engine :: l →
    ∃ t, Reaches 2 s t ∧ t.regs = s.regs ∧ t.cmd = w ∧ t.phase = .idle ∧ t.done = true ∧
      t.err = true ∧ t.ecode = .illegalCmd ∧ t.flag = false ∧ t.ovr = s.ovr ∧ t.accv = s.accv ∧
      t.irqEn = s.irqEn ∧ t.agenda = l) ∧
  (∀ (s : State) (rest : List Event) (e : Illegal), s.EnginesTurn rest → decode s.cmd = .error e →
    ∃ t, step s = .next t ∧ CompletedErr { s with agenda := rest } t .illegalCmd)

/-- Derived from R69, R22: nothing changes a register or the command word while a command executes, until
it completes or is reset. -/
def Obligations.OperandsAreFrozenWhileBusy : Prop :=
  ∀ s t : State, step s = .next t → s.phase = .busy → t.phase = .busy →
    t.regs = s.regs ∧ t.cmd = s.cmd

/-- Derived from R69: a command's outcome depends on nothing but its word, the operand registers and W: not on earlier
commands, WIN, STATUS, CTRL or what the host does. -/
def Obligations.OutcomeDependsOnOperandsAndWidthOnly : Prop :=
  ∀ (i : Instr) (s s' t t' : State), s.regs = s'.regs → s.params.words = s'.params.words →
    exec i s = .next t → exec i s' = .next t' →
    t.regs = t'.regs ∧ t.flag = t'.flag ∧ t.err = t'.err ∧ t.ecode = t'.ecode ∧ t.done = t'.done ∧
      t.phase = t'.phase

/-- Derived from R71: every accepted command completes (or is reset): whatever is on the agenda, a BUSY
state is followed by an IDLE one within one step more than the agenda is long. That an empty agenda leaves
the turn to the engine is the model's form of R71's fairness (log 2). -/
def Obligations.EveryAcceptedCommandCompletes : Prop :=
  ∀ s : State, s.phase = .busy → ∃ n t, n ≤ s.agenda.length + 1 ∧ Reaches n s t ∧ t.phase = .idle

/-- Derived from R48, R64, R67, R70: `run <command>` from an IDLE state accepts the command, completes it
on the registers as they stood, and the status the host then reads has BUSY = 0. -/
def Obligations.RunIssuesCompletesAndReturnsStatus : Prop :=
  ∀ (s : State) (i : Instr) (l : List Event), s.phase = .idle → s.agenda = runCommand i ++ l →
    ∃ u t, exec i { s with
        cmd := encode i
        phase := .busy
        done := false
        err := false
        ecode := .none
        flag := false
        agenda := wait ++ l } = .next u ∧
      Reaches 3 s t ∧ t = { u with agenda := l, reads := u.busPeek 0x00C#16 :: s.reads } ∧
      (u.busPeek 0x00C#16)[0] = false ∧ t.cmd = encode i

/-- R72: aliasing. The result, the flag and the error do not depend on which register is the destination,
so rd may equal any source; and CRT with all six fields the same register is an ordinary command. -/
def Obligations.DestinationMayAliasAnySource : Prop :=
  (∀ (i : Instr) (r r' : RegIdx) (s t t' : State), exec (i.withDest r) s = .next t →
    exec (i.withDest r') s = .next t' →
    t.flag = t'.flag ∧ t.err = t'.err ∧ t.ecode = t'.ecode ∧ (t.err = false → t.reg r = t'.reg r')) ∧
  (∀ (r m : RegIdx) (s : State), s.WellSized → s.x m ≠ 0 →
    ∃ t, exec (.modmul r r r m) s = .next t ∧ CompletedOk s t r (s.x r * s.x r % s.x m) false) ∧
  (∀ (r : RegIdx) (s : State), ∃ t, exec (.crt r r r r r r) s = .next t ∧
    CompletedErr s t (if s.x r = 0 then .zeroModulus else .range))

/-- Derived from R73, R93: a zero modulus is reported before anything else, an even one before a range
error. -/
def Obligations.ModulusErrorsComeFirst : Prop :=
  (∀ (i : Instr) (m : RegIdx) (s : State), i.modulus = some m → s.x m = 0 →
    ∃ t, exec i s = .next t ∧ CompletedErr s t .zeroModulus) ∧
  (∀ (i : Instr) (m : RegIdx) (s : State), i.modulus = some m → i.needsOdd = true → s.x m ≠ 0 →
    s.x m % 2 = 0 → ∃ t, exec i s = .next t ∧ CompletedErr s t .evenModulus)

/-- R74: every result is representable in rd: it is below 2^W, and no result is truncated. -/
def Obligations.ResultsAreBelowTwoToTheWidth : Prop :=
  ∀ (w a b c d e v : Nat) (f : Bool), a < 2 ^ w → b < 2 ^ w → c < 2 ^ w → d < 2 ^ w → e < 2 ^ w →
    (modredResult a b = .ok v f → v < b ∧ v < 2 ^ w) ∧
    (modmulResult a b c = .ok v f → v < c ∧ v < 2 ^ w) ∧
    (montmulResult w a b c = .ok v f → v < c ∧ v < 2 ^ w) ∧
    (modexpResult a b c = .ok v f → v < c ∧ v < 2 ^ w) ∧
    (modinvResult a b = .ok v f → v < b ∧ v < 2 ^ w) ∧
    (gcdResult a b = .ok v f → v ≤ max a b ∧ v < 2 ^ w) ∧
    (0 < w → mrwitResult a b = .ok v f → v ≤ 1 ∧ v < 2 ^ w) ∧
    (crtResult w a b c d e = .ok v f → v < 2 ^ w)

/-- Derived from R93: the error codes, which commands raise which, and their numbers; ECODE never reads 7 to 15. -/
def Obligations.EachCommandRaisesItsOwnErrorsOnly : Prop :=
  (∀ (i : Instr) (s t : State), exec i s = .next t →
    (t.err = false ∧ t.ecode = .none) ∨ (t.err = true ∧ t.ecode ∈ mayRaise i)) ∧
  (∀ (s : State) (rest : List Event) (t : State), s.EnginesTurn rest → step s = .next t →
    ((∃ e, decode s.cmd = .error e) ↔ t.ecode = .illegalCmd)) ∧
  (∀ s : State, ((s.busPeek 0x00C#16).extractLsb' 8 4).toNat ≤ 6) ∧
  [ErrCode.none, .illegalCmd, .zeroModulus, .evenModulus, .range, .noInverse, .overflow].map
    (fun c => c.bits.toNat) = [0, 1, 2, 3, 4, 5, 6]

/-- Derived from R94: what an error records: ERR, ECODE, FLAG 0, DONE; the failing word stays in CMD; no operand
register is written. -/
def Obligations.ErrorsArePrecise : Prop :=
  (∀ (i : Instr) (s t : State), exec i s = .next t → t.err = true →
    t.ecode ≠ .none ∧ t.flag = false ∧ t.done = true ∧ t.cmd = s.cmd ∧ t.regs = s.regs) ∧
  (∀ (s : State) (rest : List Event) (t : State), s.EnginesTurn rest → step s = .next t →
    t.err = true → t.ecode ≠ .none ∧ t.flag = false ∧ t.done = true ∧ t.cmd = s.cmd ∧
      t.regs = s.regs) ∧
  (∀ s t : State, step s = .next t → t.cmd ≠ s.cmd →
    (s.phase = .idle ∧ t.phase = .busy) ∨ ∃ e l, s.agenda = e :: l ∧ e.resets = true)

/-! ## The interrupt -/

/-- R96: irq = IRQ_EN AND DONE, a level; a STATUS write with bit 1 = 1, an accepted CMD write and reset
deassert it; an error completion raises it through DONE. -/
def Obligations.InterruptIsEnableAndDone : Prop :=
  (∀ s : State, s.irq = ((s.busPeek 0x010#16)[0] && (s.busPeek 0x00C#16)[1])) ∧
  (∀ s t : State, step s = .next t →
    (∃ e l, s.agenda = e :: l ∧ (e.clearsStatusBit 1 = true ∨ e.resets = true)) → t.irq = false) ∧
  (∀ (s t : State) (v : Word) (l : List Event), s.agenda = .write 0x008#16 v :: l → s.phase = .idle →
    step s = .next t → t.irq = false) ∧
  (∀ (s : State) (rest : List Event), s.EnginesTurn rest → ∃ t, step s = .next t ∧ t.irq = s.irqEn)

/-- R116: if DONE is still 1 when the host sets IRQ_EN, irq asserts at once; if DONE was cleared first it
does not, and if a command was issued first it does not until that command completes. -/
def Obligations.StaleDoneAssertsTheInterruptAtOnce : Prop :=
  (∀ (s : State) (l : List Event), s.agenda = .write 0x010#16 1#32 :: l → s.done = true →
    ∃ t, step s = .next t ∧ t.irq = true) ∧
  (∀ (s : State) (l : List Event),
    s.agenda = .write 0x00C#16 2#32 :: .write 0x010#16 1#32 :: l →
    ∃ t, Reaches 2 s t ∧ t.irq = false ∧ t.irqEn = true) ∧
  (∀ (s : State) (w : Word) (l : List Event), s.phase = .idle →
    s.agenda = .write 0x008#16 w :: .write 0x010#16 1#32 :: .engine :: l →
    ∃ t u, Reaches 2 s t ∧ t.irq = false ∧ t.irqEn = true ∧ step t = .next u ∧ u.irq = true)

/-- Derived from R100: in every state a run reaches, irq is asserted only while BUSY = 0. -/
def Obligations.InterruptOnlyWhileIdle : Prop :=
  ∀ s : State, s.Inv → s.irq = true → s.busPeek 0x00C#16 &&& 1#32 = 0#32

/-! ## The commands -/

/-- R75: MODRED, its encoding, its error and its result. -/
def Obligations.ModredReducesModulo : Prop :=
  (∀ w : Word, w &&& 0xFFF000FF#32 = 0x00000001#32 →
    decode w = .ok (.modred (w.extractLsb' 8 4).toFin (w.extractLsb' 12 4).toFin
      (w.extractLsb' 16 4).toFin)) ∧
  (∀ (rd a m : RegIdx) (s : State), s.WellSized →
    (s.x m = 0 → ∃ t, exec (.modred rd a m) s = .next t ∧ CompletedErr s t .zeroModulus) ∧
    (s.x m ≠ 0 → ∃ t, exec (.modred rd a m) s = .next t ∧
      CompletedOk s t rd (s.x a % s.x m) false))

/-- R76: MODMUL, its encoding, its error and its result. -/
def Obligations.ModmulMultipliesModulo : Prop :=
  (∀ w : Word, w &&& 0xFF0000FF#32 = 0x00000002#32 →
    decode w = .ok (.modmul (w.extractLsb' 8 4).toFin (w.extractLsb' 12 4).toFin
      (w.extractLsb' 16 4).toFin (w.extractLsb' 20 4).toFin)) ∧
  (∀ (rd a b m : RegIdx) (s : State), s.WellSized →
    (s.x m = 0 → ∃ t, exec (.modmul rd a b m) s = .next t ∧ CompletedErr s t .zeroModulus) ∧
    (s.x m ≠ 0 → ∃ t, exec (.modmul rd a b m) s = .next t ∧
      CompletedOk s t rd (s.x a * s.x b % s.x m) false))

/-- R77: MONTMUL, its encoding, its errors in order, and its result: the unique t below m with
t·2^W ≡ a·b (mod m). -/
def Obligations.MontmulIsTheMontgomeryProduct : Prop :=
  (∀ w : Word, w &&& 0xFF0000FF#32 = 0x00000003#32 →
    decode w = .ok (.montmul (w.extractLsb' 8 4).toFin (w.extractLsb' 12 4).toFin
      (w.extractLsb' 16 4).toFin (w.extractLsb' 20 4).toFin)) ∧
  (∀ (rd a b m : RegIdx) (s : State), s.WellSized →
    (s.x m = 0 → ∃ t, exec (.montmul rd a b m) s = .next t ∧ CompletedErr s t .zeroModulus) ∧
    (s.x m ≠ 0 → s.x m % 2 = 0 →
      ∃ t, exec (.montmul rd a b m) s = .next t ∧ CompletedErr s t .evenModulus) ∧
    (s.x m % 2 = 1 → s.x m ≤ s.x a ∨ s.x m ≤ s.x b →
      ∃ t, exec (.montmul rd a b m) s = .next t ∧ CompletedErr s t .range) ∧
    (s.x m % 2 = 1 → s.x a < s.x m → s.x b < s.x m →
      ∃ t v, exec (.montmul rd a b m) s = .next t ∧ CompletedOk s t rd v false ∧
        v < s.x m ∧ v * 2 ^ s.params.width % s.x m = s.x a * s.x b % s.x m ∧
        (∀ v', v' < s.x m → v' * 2 ^ s.params.width % s.x m = s.x a * s.x b % s.x m → v' = v) ∧
        (∀ rinv, 2 ^ s.params.width * rinv % s.x m = 1 % s.x m →
          v = s.x a * s.x b * rinv % s.x m)))

/-- R80: MODEXP, its encoding, its errors in order, and its result, the exact integer power reduced. -/
def Obligations.ModexpIsTheExactPowerModulo : Prop :=
  (∀ w : Word, w &&& 0xFF0000FF#32 = 0x00000004#32 →
    decode w = .ok (.modexp (w.extractLsb' 8 4).toFin (w.extractLsb' 12 4).toFin
      (w.extractLsb' 16 4).toFin (w.extractLsb' 20 4).toFin)) ∧
  (∀ (rd base exp m : RegIdx) (s : State), s.WellSized →
    (s.x m = 0 → ∃ t, exec (.modexp rd base exp m) s = .next t ∧ CompletedErr s t .zeroModulus) ∧
    (s.x m ≠ 0 → s.x m % 2 = 0 →
      ∃ t, exec (.modexp rd base exp m) s = .next t ∧ CompletedErr s t .evenModulus) ∧
    (s.x m % 2 = 1 → ∃ t, exec (.modexp rd base exp m) s = .next t ∧
      CompletedOk s t rd (s.x base ^ s.x exp % s.x m) false))

/-- R87: MRWIT, its encoding, its errors in order, and its verdict: with x − 1 = d·2^k and d odd, 0 if
a^d mod x is 1 or one of a^d, a^(2d), …, a^(2^(k−1)·d) is x − 1 modulo x, else 1; FLAG is the verdict. -/
def Obligations.MrwitRunsOneWitnessRound : Prop :=
  (∀ w : Word, w &&& 0xFFF000FF#32 = 0x00000005#32 →
    decode w = .ok (.mrwit (w.extractLsb' 8 4).toFin (w.extractLsb' 12 4).toFin
      (w.extractLsb' 16 4).toFin)) ∧
  (∀ (rd x a : RegIdx) (s : State), s.WellSized →
    (s.x x = 0 → ∃ t, exec (.mrwit rd x a) s = .next t ∧ CompletedErr s t .zeroModulus) ∧
    (s.x x ≠ 0 → s.x x % 2 = 0 →
      ∃ t, exec (.mrwit rd x a) s = .next t ∧ CompletedErr s t .evenModulus) ∧
    (s.x x = 1 → ∃ t, exec (.mrwit rd x a) s = .next t ∧ CompletedErr s t .range) ∧
    (s.x x % 2 = 1 → 3 ≤ s.x x →
      ∃ t d k, s.x x - 1 = d * 2 ^ k ∧ d % 2 = 1 ∧ 1 ≤ k ∧
        exec (.mrwit rd x a) s = .next t ∧
        ((s.x a ^ d % s.x x = 1 ∨ ∃ i < k, s.x a ^ (d * 2 ^ i) % s.x x = s.x x - 1) →
          CompletedOk s t rd 0 false) ∧
        (¬ (s.x a ^ d % s.x x = 1 ∨ ∃ i < k, s.x a ^ (d * 2 ^ i) % s.x x = s.x x - 1) →
          CompletedOk s t rd 1 true)))

/-- R83: GCD, its encoding and its result: the greatest common divisor, with gcd(0, 0) = 0. -/
def Obligations.GcdIsTheGreatestCommonDivisor : Prop :=
  (∀ w : Word, w &&& 0xFFF000FF#32 = 0x00000006#32 →
    decode w = .ok (.gcd (w.extractLsb' 8 4).toFin (w.extractLsb' 12 4).toFin
      (w.extractLsb' 16 4).toFin)) ∧
  (∀ (rd a b : RegIdx) (s : State), s.WellSized →
    ∃ t g, exec (.gcd rd a b) s = .next t ∧ CompletedOk s t rd g false ∧
      g ∣ s.x a ∧ g ∣ s.x b ∧ (∀ c, c ∣ s.x a → c ∣ s.x b → c ∣ g) ∧
      (s.x b = 0 → g = s.x a))

/-- R84 and the law of R85: MODINV, its encoding, its errors in order, and its result: the unique r below
m with (a·r) mod m = 1 mod m. -/
def Obligations.ModinvIsTheReducedInverse : Prop :=
  (∀ w : Word, w &&& 0xFFF000FF#32 = 0x00000007#32 →
    decode w = .ok (.modinv (w.extractLsb' 8 4).toFin (w.extractLsb' 12 4).toFin
      (w.extractLsb' 16 4).toFin)) ∧
  (∀ (rd a m : RegIdx) (s : State), s.WellSized →
    (s.x m = 0 → ∃ t, exec (.modinv rd a m) s = .next t ∧ CompletedErr s t .zeroModulus) ∧
    (s.x m ≠ 0 → Nat.gcd (s.x a) (s.x m) ≠ 1 →
      ∃ t, exec (.modinv rd a m) s = .next t ∧ CompletedErr s t .noInverse) ∧
    (1 ≤ s.x m → Nat.gcd (s.x a) (s.x m) = 1 →
      ∃ t r, exec (.modinv rd a m) s = .next t ∧ CompletedOk s t rd r false ∧
        r < s.x m ∧ s.x a * r % s.x m = 1 % s.x m ∧
        (∀ r', r' < s.x m → s.x a * r' % s.x m = 1 % s.x m → r' = r)))

/-- R90: CRT, its encoding, its errors in order, and its result m2 + h·q with
h = (qinv·(m1 − m2 + p)) mod p on exact signed integers, h in [0, p). -/
def Obligations.CrtRecombines : Prop :=
  (∀ w : Word, w &&& 0x000000FF#32 = 0x00000008#32 →
    decode w = .ok (.crt (w.extractLsb' 8 4).toFin (w.extractLsb' 12 4).toFin
      (w.extractLsb' 16 4).toFin (w.extractLsb' 20 4).toFin (w.extractLsb' 24 4).toFin
      (w.extractLsb' 28 4).toFin)) ∧
  (∀ (rd m1 m2 p q qinv : RegIdx) (s : State), s.WellSized →
    (s.x p = 0 → ∃ t, exec (.crt rd m1 m2 p q qinv) s = .next t ∧ CompletedErr s t .zeroModulus) ∧
    (s.x p ≠ 0 → s.x p ≤ s.x m1 ∨ s.x q ≤ s.x m2 →
      ∃ t, exec (.crt rd m1 m2 p q qinv) s = .next t ∧ CompletedErr s t .range) ∧
    (s.x m1 < s.x p → s.x m2 < s.x q →
      ∃ (t : State) (h : Nat), exec (.crt rd m1 m2 p q qinv) s = .next t ∧ h < s.x p ∧
        (h : Int) = (s.x qinv : Int) * ((s.x m1 : Int) - s.x m2 + s.x p) % s.x p ∧
        (2 ^ s.params.width ≤ s.x m2 + h * s.x q → CompletedErr s t .overflow) ∧
        (s.x m2 + h * s.x q < 2 ^ s.params.width →
          CompletedOk s t rd (s.x m2 + h * s.x q) false)))

/-! ## Laws of the arithmetic -/

/-- R78: the Montgomery-domain identities, for odd m ≥ 3 and a, b < m, with rr = 2^(2W) mod m. -/
def Obligations.MontgomeryDomainIdentities : Prop :=
  ∀ w a b m : Nat, m % 2 = 1 → 3 ≤ m → a < m → b < m →
    montmulResult w a (2 ^ (2 * w) % m) m = .ok (a * 2 ^ w % m) false ∧
    (∃ v, montmulResult w a 1 m = .ok v false ∧ v < m ∧ v * 2 ^ w % m = a) ∧
    montmulResult w (a * 2 ^ w % m) (b * 2 ^ w % m) m = .ok (a * b * 2 ^ w % m) false ∧
    modexpResult 2 (2 * w) m = .ok (2 ^ (2 * w) % m) false

/-- Derived from R81: the reference method in the Montgomery domain for odd m ≥ 3, 0 for m = 1, and a
fixed window of any width, give the result of R80. The details the spec leaves open are the model's
(log 14). -/
def Obligations.ReferenceMethodsComputeModexp : Prop :=
  (∀ w g e m : Nat, m % 2 = 1 → 3 ≤ m → e < 2 ^ w →
    modexpResult g e m = .ok (Reference.montExp w g e m) false) ∧
  (∀ g e : Nat, modexpResult g e 1 = .ok 0 false) ∧
  (∀ win n g e m : Nat, m % 2 = 1 → 1 ≤ win → win ≤ 6 → e < 2 ^ (win * n) →
    modexpResult g e m = .ok (Reference.windowExp win n g e m) false)

/-- Derived from R79: the word-serial reduction with 32-bit digits gives the result of R77 for every
admitted operand, so such a circuit conforms. The digit size of 32 bits is the model's choice (log 14). -/
def Obligations.WordSerialReductionConforms : Prop :=
  ∀ words a b m : Nat, m % 2 = 1 → a < m → b < m → m < 2 ^ (32 * words) →
    montmulResult (32 * words) a b m = .ok (Reference.montSerial words a b m) false

/-- R92: the recombination law. -/
def Obligations.CrtRecombinationLaw : Prop :=
  ∀ (rd m1 m2 p q qinv : RegIdx) (s t : State), s.WellSized →
    exec (.crt rd m1 m2 p q qinv) s = .next t → t.err = false →
    1 ≤ s.x p → 1 ≤ s.x q → s.x qinv * s.x q % s.x p = 1 % s.x p →
    t.x rd % s.x p = s.x m1 ∧ t.x rd % s.x q = s.x m2 ∧ t.x rd < s.x p * s.x q

/-- Derived from R91 with the key invariant of R19 (e·d ≡ 1 mod φ): CRT decryption on the core, two
MODEXP commands and one CRT, gives c^d mod N, as MODEXP with d and N does. That premise is log 19. -/
def Obligations.CrtDecryptionAgreesWithDirectDecryption : Prop :=
  ∀ (s : State) (c dp dq p q qinv m1 m2 r : RegIdx) (e d : Nat), s.WellSized →
    m1 ∉ [c, dq, p, q, qinv] → m2 ∉ [m1, p, q, qinv] →
    (s.x p).Prime → (s.x q).Prime → s.x p ≠ s.x q → s.x p % 2 = 1 → s.x q % 2 = 1 →
    e * d % ((s.x p - 1) * (s.x q - 1)) = 1 →
    s.x dp = d % (s.x p - 1) → s.x dq = d % (s.x q - 1) →
    s.x qinv < s.x p → s.x qinv * s.x q % s.x p = 1 →
    s.x c < s.x p * s.x q → s.x p * s.x q < 2 ^ s.params.width →
    ∃ t1 t2 t3, exec (.modexp m1 c dp p) s = .next t1 ∧ exec (.modexp m2 c dq q) t1 = .next t2 ∧
      exec (.crt r m1 m2 p q qinv) t2 = .next t3 ∧ t3.err = false ∧
      t3.x r = s.x c ^ d % (s.x p * s.x q)

/-- Derived from R86 and conflict C3: dp and dq computed as modinv(e, p−1) and as d mod (p−1) agree when
e·d ≡ 1 (mod φ). -/
def Obligations.KeyExponentsAgree : Prop :=
  ∀ (rd e pm1 : RegIdx) (s : State) (d qm1 : Nat), s.WellSized → 1 ≤ s.x pm1 → 1 ≤ qm1 →
    s.x e * d % (s.x pm1 * qm1) = 1 % (s.x pm1 * qm1) →
    ∃ t, exec (.modinv rd e pm1) s = .next t ∧ CompletedOk s t rd (d % s.x pm1) false

/-- Derived from R18, R87: the round proves only composites: for a prime x ≥ 3 and a witness a that x
does not divide, the verdict is 0. -/
def Obligations.MrwitNeverCondemnsAPrime : Prop :=
  ∀ (rd x a : RegIdx) (s : State), s.WellSized → (s.x x).Prime → 3 ≤ s.x x → ¬ s.x x ∣ s.x a →
    ∃ t, exec (.mrwit rd x a) s = .next t ∧ CompletedOk s t rd 0 false

/-! ## Encoding -/

/-- Derived from R56, R58: decoding the word of any command gives the command back, with every register field at every
value. -/
def Obligations.DecodeOfEncodeIsTheCommand : Prop :=
  ∀ i : Instr, decode (encode i) = .ok i ∧ i.fields.wf = true

/-- Derived from R59, R61: a word that decodes to a command is that command's word, so every command has
one word and no bit is ignored. -/
def Obligations.EncodeOfDecodeIsTheWord : Prop :=
  (∀ (w : Word) (i : Instr), decode w = .ok i → encode i = w) ∧
  (∀ w : Word, (∃ i, decode w = .ok i) ↔ (fieldsOf w).wf = true)

/-- R59: a word decodes to a command exactly when it matches that command's row of the opcode map, and no
two rows match one word. -/
def Obligations.DecodeFollowsTheOpcodeMap : Prop :=
  (∀ (w : Word) (i : Instr), decode w = .ok i →
    ∃ row ∈ opcodeMap, row.name = i.name ∧ row.selects w = true) ∧
  (∀ (w : Word) (row : OpRow), row ∈ opcodeMap → row.selects w = true →
    ∃ i, decode w = .ok i ∧ i.name = row.name) ∧
  (∀ (w : Word) (row row' : OpRow), row ∈ opcodeMap → row' ∈ opcodeMap → row.selects w = true →
    row'.selects w = true → row = row')

/-- Derived from R56 to R60 and R65: words of the spec's encoding examples and decode vectors. -/
def Obligations.EncodingExamples : Prop :=
  decode 0x00210304#32 = .ok (.modexp 3 0 1 2) ∧
  decode 0x00021505#32 = .ok (.mrwit 5 1 2) ∧
  decode 0x87654908#32 = .ok (.crt 9 4 5 6 7 8) ∧
  decode 0x00021307#32 = .ok (.modinv 3 1 2) ∧
  decode 0x00100001#32 = .error .unusedFieldNonzero

/-- Derived from R62, R63: the assembler's syntax gives every command its word, and the pseudo-instructions
their expansions. -/
def Obligations.AssemblerGivesTheWord : Prop :=
  (∀ i : Instr, assemble (.op i.name i.operands) = some (encode i)) ∧
  (∀ rd a m : RegIdx,
    assemble (.op "modsqr" [rd, a, m]) = assemble (.op "modmul" [rd, a, a, m]) ∧
    assemble (.op "copy" [rd, a, m]) = assemble (.op "modred" [rd, a, m])) ∧
  (∀ rd a r m : RegIdx,
    assemble (.op "tomont" [rd, a, r, m]) = assemble (.op "montmul" [rd, a, r, m]) ∧
    assemble (.op "frommont" [rd, a, r, m]) = assemble (.op "montmul" [rd, a, r, m])) ∧
  (∀ v : Word, assemble (.word v) = some v)

/-! ## The whole machine -/

/-- Derived from R21, R31, R32, R67: every step keeps the invariant: registers W bits wide, DONE, ERR and
FLAG 0 while BUSY, ERR exactly with an error code, FLAG only after MRWIT. -/
def Obligations.EveryStepKeepsTheInvariant : Prop :=
  ∀ s t : State, s.Inv → step s = .next t → t.Inv

/-- Derived from R36, R21: the invariant holds after reset, in every configuration. -/
def Obligations.ResetMeetsTheInvariant : Prop :=
  State.reset.Inv ∧ ∀ p : Params, (State.resetOf p).Inv

/-- Derived from R95, R94, R99: no access and no command stops the machine: every step gives a next state. -/
def Obligations.TheMachineNeverStops : Prop :=
  (∀ s : State, ∃ t, step s = .next t) ∧ (∀ (i : Instr) (s : State), ∃ t, exec i s = .next t)

/-- Derived from R70, R49: a completion changes nothing but the destination register, DONE, ERR, ECODE,
FLAG and the phase, for every command; every bus word outside the destination's window and STATUS reads
as it would have read before, had the engine been IDLE. -/
def Obligations.CompletionFrame : Prop :=
  ∀ (i : Instr) (s t : State), exec i s = .next t →
    (∀ r, r ≠ i.dest → t.reg r = s.reg r) ∧ Unchanged s t ∧ t.phase = .idle ∧ t.done = true ∧
    (∀ a, busTarget a ≠ .status → (∀ k, busTarget a ≠ .window i.dest k) →
      t.busPeek a = ({ s with phase := .idle } : State).busPeek a)
end

