-- ==== Sys2Proof/Laws/Arith.lean ====
section
/-! SUPPORT. One lemma per arithmetic function: what it computes. -/

namespace Sys2Proof.Machine.Arith

/-! ### Exponentiation -/

theorem powLoop_mod (fuel acc g e m : Nat) (he : e ≤ fuel) :
    powLoop fuel acc g e m % m = acc * g ^ e % m := by
  induction fuel generalizing acc g e with
  | zero =>
    obtain rfl : e = 0 := by omega
    simp [powLoop]
  | succ fuel ih =>
    by_cases h0 : e = 0
    · simp [powLoop, h0]
    · rw [powLoop, if_neg h0, ih _ _ _ (by omega)]
      have hsq : (g * g % m) ^ (e / 2) ≡ g ^ (2 * (e / 2)) [MOD m] := by
        rw [pow_mul, sq]
        exact (Nat.mod_modEq _ _).pow _
      by_cases h1 : e % 2 = 1
      · rw [if_pos h1]
        have h2 : g ^ e = g * g ^ (2 * (e / 2)) := by
          rw [← pow_succ']; congr 1; omega
        rw [h2, ← mul_assoc]
        exact ((Nat.mod_modEq _ _).mul hsq)
      · rw [if_neg h1]
        have h2 : g ^ e = g ^ (2 * (e / 2)) := by congr 1; omega
        rw [h2]
        exact hsq.mul_left _

theorem powLoop_reduced (fuel acc g e m : Nat) (ha : acc % m = acc) :
    powLoop fuel acc g e m % m = powLoop fuel acc g e m := by
  induction fuel generalizing acc g e with
  | zero => exact ha
  | succ fuel ih =>
    rw [powLoop]
    split
    · exact ha
    · apply ih
      split
      · exact Nat.mod_mod _ _
      · exact ha

/-- The engine's method computes the exact integer power reduced (R80). -/
theorem powMod_eq (g e m : Nat) : powMod g e m = g ^ e % m := by
  rw [powMod, ← powLoop_reduced _ _ _ _ _ (Nat.mod_mod 1 m), powLoop_mod _ _ _ _ _ le_rfl]
  exact ((Nat.mod_modEq 1 m).mul ((Nat.mod_modEq g m).pow e)).trans (by rw [one_mul])

/-! ### Modular inverse -/

/-- One Euclid step keeps "coefficient times a is the remainder" modulo m. -/
theorem euclid_step_modEq {m r0 r1 t0 t1 a : Nat} (h0 : t0 * a ≡ r0 [MOD m])
    (h1 : t1 * a ≡ r1 [MOD m]) (hm : 0 < m) :
    (t0 + (m - r0 / r1 * t1 % m)) % m * a ≡ r0 % r1 [MOD m] := by
  have hlt : r0 / r1 * t1 % m ≤ m := (Nat.mod_lt _ hm).le
  rw [← Int.natCast_modEq_iff] at *
  push_cast [hlt] at *
  have hq : (r0 : Int) % r1 = r0 - r0 / r1 * r1 := by
    rw [Int.emod_def]; ring
  rw [hq]
  have e1 : ((t0 : Int) + (m - (r0 / r1 * t1 : Int) % m)) % m ≡ t0 - r0 / r1 * t1 [ZMOD m] := by
    refine (Int.mod_modEq _ _).trans ?_
    have : ((r0 / r1 * t1 : Int) % m) ≡ r0 / r1 * t1 [ZMOD m] := Int.mod_modEq _ _
    have h2 := (Int.ModEq.refl (t0 : Int) (n := m)).add
      (((Int.modEq_zero_iff_dvd.2 (dvd_refl (m : Int)))).sub this)
    simpa [sub_eq_add_neg] using h2
  refine (e1.mul_right _).trans ?_
  have := h0.sub (h1.mul_left (r0 / r1 : Int))
  convert this using 1
  ring

theorem euclidLoop_spec (fuel : Nat) {m r0 r1 t0 t1 a : Nat} (hf : r1 ≤ fuel) (hm : 0 < m)
    (h0 : t0 * a ≡ r0 [MOD m]) (h1 : t1 * a ≡ r1 [MOD m]) (hg : Nat.gcd r0 r1 = 1)
    (ht0 : t0 < m) (ht1 : t1 < m) :
    euclidLoop fuel r0 t0 r1 t1 m * a ≡ 1 [MOD m] ∧ euclidLoop fuel r0 t0 r1 t1 m < m := by
  induction fuel generalizing r0 r1 t0 t1 with
  | zero =>
    obtain rfl : r1 = 0 := by omega
    obtain rfl : r0 = 1 := by simpa using hg
    exact ⟨h0, ht0⟩
  | succ fuel ih =>
    rw [euclidLoop]
    split
    · rename_i hz
      subst hz
      obtain rfl : r0 = 1 := by simpa using hg
      exact ⟨h0, ht0⟩
    · rename_i hz
      have hlt : r0 % r1 < r1 := Nat.mod_lt _ (by omega)
      refine ih (by omega) h1 (euclid_step_modEq h0 h1 hm) ?_ ht1 (Nat.mod_lt _ hm)
      rw [Nat.gcd_comm, ← Nat.gcd_rec, Nat.gcd_comm]; exact hg

/-- `inv(a, m)` is the reduced inverse of R15. -/
theorem inv_spec {a m : Nat} (hm : 0 < m) (hg : Nat.gcd (a % m) m = 1) :
    a * inv a m % m = 1 % m ∧ inv a m < m := by
  rcases Nat.lt_or_ge 1 m with h1 | h1
  · have h := euclidLoop_spec (a := a) m (r0 := m) (r1 := a % m) (t0 := 0) (t1 := 1 % m)
      (Nat.mod_lt a hm).le hm (by simp [Nat.ModEq]) (by simp [Nat.ModEq]) (by rwa [Nat.gcd_comm])
      hm (Nat.mod_lt _ hm)
    refine ⟨?_, h.2⟩
    have := h.1
    rwa [Nat.ModEq, mul_comm] at this
  · obtain rfl : m = 1 := by omega
    simp [inv, euclidLoop, Nat.mod_one]

/-- The inverse is unique, so any r with the property is `inv a m`. -/
theorem inv_unique {a m r : Nat} (hm : 0 < m) (hg : Nat.gcd (a % m) m = 1)
    (hr : a * r % m = 1 % m) (hlt : r < m) : r = inv a m := by
  obtain ⟨h1, h2⟩ := inv_spec hm hg
  have hc : Nat.Coprime m a := by
    rw [Nat.coprime_comm, Nat.coprime_iff_gcd_eq_one, ← hg, Nat.gcd_comm a, Nat.gcd_rec]
  have : a * r ≡ a * inv a m [MOD m] := by rw [Nat.ModEq, hr, h1]
  have := Nat.ModEq.cancel_left_of_coprime (by simpa [Nat.coprime_iff_gcd_eq_one] using hc) this
  rwa [Nat.ModEq, Nat.mod_eq_of_lt hlt, Nat.mod_eq_of_lt h2] at this

/-! ### Montgomery product -/

theorem gcd_two_pow_mod {w m : Nat} (ho : m % 2 = 1) : Nat.gcd (2 ^ w % m) m = 1 := by
  rw [← Nat.gcd_rec, Nat.gcd_comm]
  exact Nat.Coprime.pow_left _ ((Nat.coprime_two_left).2 (Nat.odd_iff.2 ho))

theorem montmul_lt {w a b m : Nat} (hm : 0 < m) : montmul w a b m < m := Nat.mod_lt _ hm

/-- The Montgomery product t has t·2^W ≡ a·b (mod m) (R77). -/
theorem montmul_spec {w a b m : Nat} (ho : m % 2 = 1) :
    montmul w a b m * 2 ^ w ≡ a * b [MOD m] := by
  have hm : 0 < m := by omega
  have hi := (inv_spec hm (gcd_two_pow_mod (w := w) ho)).1
  have h1 : 2 ^ w * inv (2 ^ w) m ≡ 1 [MOD m] := hi
  calc montmul w a b m * 2 ^ w ≡ a * b * inv (2 ^ w) m * 2 ^ w [MOD m] :=
        (Nat.mod_modEq _ _).mul_right _
    _ = a * b * (2 ^ w * inv (2 ^ w) m) := by ring
    _ ≡ a * b * 1 [MOD m] := h1.mul_left _
    _ = a * b := by ring

theorem two_pow_cancel {w m x y : Nat} (ho : m % 2 = 1) (h : x * 2 ^ w ≡ y * 2 ^ w [MOD m]) :
    x ≡ y [MOD m] := by
  refine Nat.ModEq.cancel_right_of_coprime ?_ h
  exact Nat.Coprime.pow_right _ ((Nat.coprime_two_right).2 (Nat.odd_iff.2 ho))

/-- The Montgomery product is the only t < m with t·2^W ≡ a·b (mod m) (R77). -/
theorem montmul_unique {w a b m t : Nat} (ho : m % 2 = 1) (ht : t < m)
    (h : t * 2 ^ w ≡ a * b [MOD m]) : t = montmul w a b m := by
  have h2 := two_pow_cancel ho (h.trans (montmul_spec (w := w) ho).symm)
  rwa [Nat.ModEq, Nat.mod_eq_of_lt ht, Nat.mod_eq_of_lt (montmul_lt (by omega))] at h2

/-! ### Miller-Rabin round -/

theorem splitTwos_spec (fuel : Nat) {d : Nat} (s : Nat) (hd : 0 < d) (hf : d ≤ fuel) :
    d * 2 ^ s = (splitTwos fuel d s).1 * 2 ^ (splitTwos fuel d s).2 ∧
      (splitTwos fuel d s).1 % 2 = 1 ∧ s ≤ (splitTwos fuel d s).2 := by
  induction fuel generalizing d s with
  | zero => omega
  | succ fuel ih =>
    rw [splitTwos]
    split
    · rename_i h2
      obtain ⟨h, ho, hs⟩ := ih (d := d / 2) (s + 1) (by omega) (by omega)
      refine ⟨?_, ho, by omega⟩
      rw [← h, pow_succ']
      obtain ⟨k, rfl⟩ : 2 ∣ d := Nat.dvd_of_mod_eq_zero h2
      rw [Nat.mul_div_cancel_left _ (by omega)]
      ring
    · exact ⟨rfl, by simp only; omega, le_refl _⟩

/-- The loop finds a match exactly when one of b, b², …, b^(2^(n−1)) is x − 1 modulo x (R87). -/
theorem matchesMinusOne_iff {n b x c e : Nat} (hb : b = c ^ e % x) :
    matchesMinusOne n b x = true ↔ ∃ i < n, c ^ (e * 2 ^ i) % x = x - 1 := by
  induction n generalizing b e with
  | zero => simp [matchesMinusOne]
  | succ n ih =>
    have hsq : b * b % x = c ^ (e * 2) % x := by
      rw [hb, pow_mul, sq, ← Nat.mul_mod]
    rw [matchesMinusOne, Bool.or_eq_true, beq_iff_eq, ih hsq]
    constructor
    · rintro (h | ⟨i, hi, h⟩)
      · exact ⟨0, by omega, by simpa [hb] using h⟩
      · exact ⟨i + 1, by omega, by rw [← h, pow_succ']; congr 2; ring⟩
    · rintro ⟨i, hi, h⟩
      rcases i with _ | i
      · exact .inl (by simpa [hb] using h)
      · exact .inr ⟨i, by omega, by rw [← h, pow_succ']; congr 2; ring⟩

/-- The decomposition x − 1 = d·2^s with d odd is unique. -/
theorem split_unique {d s d' s' : Nat} (h : d * 2 ^ s = d' * 2 ^ s') (hd : d % 2 = 1)
    (hd' : d' % 2 = 1) : d = d' ∧ s = s' := by
  induction s generalizing s' with
  | zero =>
    rcases s' with _ | s'
    · simpa using h
    · rw [pow_succ, ← mul_assoc] at h; omega
  | succ s ih =>
    rcases s' with _ | s'
    · rw [pow_succ, ← mul_assoc] at h; omega
    · have := ih (s' := s') (by rw [pow_succ, pow_succ, ← mul_assoc, ← mul_assoc] at h; omega)
      exact ⟨this.1, by omega⟩

/-- The verdict of a round in terms of any decomposition x − 1 = d·2^s with d odd (R87). -/
theorem witnessVerdict_eq_false_iff {x a d s : Nat} (hx : 3 ≤ x) (hxs : x - 1 = d * 2 ^ s)
    (hd : d % 2 = 1) :
    witnessVerdict x a = false ↔
      a ^ d % x = 1 ∨ ∃ i < s, a ^ (d * 2 ^ i) % x = x - 1 := by
  obtain ⟨h1, h2, -⟩ := splitTwos_spec (x - 1) (d := x - 1) 0 (by omega) le_rfl
  rw [pow_zero, mul_one] at h1
  obtain ⟨e1, e2⟩ := split_unique (hxs.symm.trans h1) hd h2
  have key : witnessVerdict x a = (if powMod a d x = 1 then false
      else !matchesMinusOne s (powMod a d x) x) := by
    rw [e1, e2]; rfl
  rw [key, powMod_eq]
  split
  · rename_i h; simp [h]
  · rename_i h
    rw [Bool.not_eq_false', matchesMinusOne_iff (c := a) (e := d) rfl]
    simp [h]

/-! ### CRT -/

theorem crtH_eq {m1 m2 p qinv : Nat} (hp : 0 < p) :
    (crtH m1 m2 p qinv : Int) = (qinv : Int) * ((m1 : Int) - m2 + p) % p :=
  Int.toNat_of_nonneg (Int.emod_nonneg _ (by omega))

theorem crtH_lt {m1 m2 p qinv : Nat} (hp : 0 < p) : crtH m1 m2 p qinv < p := by
  have h := Int.emod_lt_of_pos ((qinv : Int) * ((m1 : Int) - m2 + p)) (show (0 : Int) < p by omega)
  rw [← crtH_eq hp] at h
  exact_mod_cast h

end Sys2Proof.Machine.Arith
end

