-- ==== Sys2Proof/Laws/State.lean ====
section
/-! SUPPORT. For each update of the state, what each field is after it: true by rfl, so that no later
proof unfolds an update. -/

namespace Sys2Proof.Machine.State

variable (s : State)

/-! ### setReg -/

@[simp] theorem setReg_params (r : RegIdx) (v : Operand) : (s.setReg r v).params = s.params := rfl
@[simp] theorem setReg_regs (r : RegIdx) (v : Operand) : (s.setReg r v).regs = s.regs.set r.val v := rfl
@[simp] theorem setReg_phase (r : RegIdx) (v : Operand) : (s.setReg r v).phase = s.phase := rfl
@[simp] theorem setReg_cmd (r : RegIdx) (v : Operand) : (s.setReg r v).cmd = s.cmd := rfl
@[simp] theorem setReg_done (r : RegIdx) (v : Operand) : (s.setReg r v).done = s.done := rfl
@[simp] theorem setReg_err (r : RegIdx) (v : Operand) : (s.setReg r v).err = s.err := rfl
@[simp] theorem setReg_flag (r : RegIdx) (v : Operand) : (s.setReg r v).flag = s.flag := rfl
@[simp] theorem setReg_ovr (r : RegIdx) (v : Operand) : (s.setReg r v).ovr = s.ovr := rfl
@[simp] theorem setReg_accv (r : RegIdx) (v : Operand) : (s.setReg r v).accv = s.accv := rfl
@[simp] theorem setReg_ecode (r : RegIdx) (v : Operand) : (s.setReg r v).ecode = s.ecode := rfl
@[simp] theorem setReg_irqEn (r : RegIdx) (v : Operand) : (s.setReg r v).irqEn = s.irqEn := rfl
@[simp] theorem setReg_agenda (r : RegIdx) (v : Operand) : (s.setReg r v).agenda = s.agenda := rfl
@[simp] theorem setReg_reads (r : RegIdx) (v : Operand) : (s.setReg r v).reads = s.reads := rfl

/-! ### popEvent -/

@[simp] theorem popEvent_params : (s.popEvent).params = s.params := rfl
@[simp] theorem popEvent_regs : (s.popEvent).regs = s.regs := rfl
@[simp] theorem popEvent_phase : (s.popEvent).phase = s.phase := rfl
@[simp] theorem popEvent_cmd : (s.popEvent).cmd = s.cmd := rfl
@[simp] theorem popEvent_done : (s.popEvent).done = s.done := rfl
@[simp] theorem popEvent_err : (s.popEvent).err = s.err := rfl
@[simp] theorem popEvent_flag : (s.popEvent).flag = s.flag := rfl
@[simp] theorem popEvent_ovr : (s.popEvent).ovr = s.ovr := rfl
@[simp] theorem popEvent_accv : (s.popEvent).accv = s.accv := rfl
@[simp] theorem popEvent_ecode : (s.popEvent).ecode = s.ecode := rfl
@[simp] theorem popEvent_irqEn : (s.popEvent).irqEn = s.irqEn := rfl
@[simp] theorem popEvent_agenda : (s.popEvent).agenda = s.agenda.tail := rfl
@[simp] theorem popEvent_reads : (s.popEvent).reads = s.reads := rfl

/-! ### accept -/

@[simp] theorem accept_params (w : Word) : (s.accept w).params = s.params := rfl
@[simp] theorem accept_regs (w : Word) : (s.accept w).regs = s.regs := rfl
@[simp] theorem accept_phase (w : Word) : (s.accept w).phase = .busy := rfl
@[simp] theorem accept_cmd (w : Word) : (s.accept w).cmd = w := rfl
@[simp] theorem accept_done (w : Word) : (s.accept w).done = false := rfl
@[simp] theorem accept_err (w : Word) : (s.accept w).err = false := rfl
@[simp] theorem accept_flag (w : Word) : (s.accept w).flag = false := rfl
@[simp] theorem accept_ovr (w : Word) : (s.accept w).ovr = s.ovr := rfl
@[simp] theorem accept_accv (w : Word) : (s.accept w).accv = s.accv := rfl
@[simp] theorem accept_ecode (w : Word) : (s.accept w).ecode = .none := rfl
@[simp] theorem accept_irqEn (w : Word) : (s.accept w).irqEn = s.irqEn := rfl
@[simp] theorem accept_agenda (w : Word) : (s.accept w).agenda = s.agenda := rfl
@[simp] theorem accept_reads (w : Word) : (s.accept w).reads = s.reads := rfl

/-! ### markOverrun -/

@[simp] theorem markOverrun_params : (s.markOverrun).params = s.params := rfl
@[simp] theorem markOverrun_regs : (s.markOverrun).regs = s.regs := rfl
@[simp] theorem markOverrun_phase : (s.markOverrun).phase = s.phase := rfl
@[simp] theorem markOverrun_cmd : (s.markOverrun).cmd = s.cmd := rfl
@[simp] theorem markOverrun_done : (s.markOverrun).done = s.done := rfl
@[simp] theorem markOverrun_err : (s.markOverrun).err = s.err := rfl
@[simp] theorem markOverrun_flag : (s.markOverrun).flag = s.flag := rfl
@[simp] theorem markOverrun_ovr : (s.markOverrun).ovr = true := rfl
@[simp] theorem markOverrun_accv : (s.markOverrun).accv = s.accv := rfl
@[simp] theorem markOverrun_ecode : (s.markOverrun).ecode = s.ecode := rfl
@[simp] theorem markOverrun_irqEn : (s.markOverrun).irqEn = s.irqEn := rfl
@[simp] theorem markOverrun_agenda : (s.markOverrun).agenda = s.agenda := rfl
@[simp] theorem markOverrun_reads : (s.markOverrun).reads = s.reads := rfl

/-! ### markAccessViolation -/

@[simp] theorem markAccessViolation_params : (s.markAccessViolation).params = s.params := rfl
@[simp] theorem markAccessViolation_regs : (s.markAccessViolation).regs = s.regs := rfl
@[simp] theorem markAccessViolation_phase : (s.markAccessViolation).phase = s.phase := rfl
@[simp] theorem markAccessViolation_cmd : (s.markAccessViolation).cmd = s.cmd := rfl
@[simp] theorem markAccessViolation_done : (s.markAccessViolation).done = s.done := rfl
@[simp] theorem markAccessViolation_err : (s.markAccessViolation).err = s.err := rfl
@[simp] theorem markAccessViolation_flag : (s.markAccessViolation).flag = s.flag := rfl
@[simp] theorem markAccessViolation_ovr : (s.markAccessViolation).ovr = s.ovr := rfl
@[simp] theorem markAccessViolation_accv : (s.markAccessViolation).accv = true := rfl
@[simp] theorem markAccessViolation_ecode : (s.markAccessViolation).ecode = s.ecode := rfl
@[simp] theorem markAccessViolation_irqEn : (s.markAccessViolation).irqEn = s.irqEn := rfl
@[simp] theorem markAccessViolation_agenda : (s.markAccessViolation).agenda = s.agenda := rfl
@[simp] theorem markAccessViolation_reads : (s.markAccessViolation).reads = s.reads := rfl

/-! ### applyReset -/

@[simp] theorem applyReset_params : (s.applyReset).params = s.params := rfl
@[simp] theorem applyReset_regs : (s.applyReset).regs = Vector.replicate 16 (List.replicate s.params.words 0#32) := rfl
@[simp] theorem applyReset_phase : (s.applyReset).phase = .idle := rfl
@[simp] theorem applyReset_cmd : (s.applyReset).cmd = 0#32 := rfl
@[simp] theorem applyReset_done : (s.applyReset).done = false := rfl
@[simp] theorem applyReset_err : (s.applyReset).err = false := rfl
@[simp] theorem applyReset_flag : (s.applyReset).flag = false := rfl
@[simp] theorem applyReset_ovr : (s.applyReset).ovr = false := rfl
@[simp] theorem applyReset_accv : (s.applyReset).accv = false := rfl
@[simp] theorem applyReset_ecode : (s.applyReset).ecode = .none := rfl
@[simp] theorem applyReset_irqEn : (s.applyReset).irqEn = false := rfl
@[simp] theorem applyReset_agenda : (s.applyReset).agenda = s.agenda := rfl
@[simp] theorem applyReset_reads : (s.applyReset).reads = s.reads := rfl

/-! ### completeOk -/

@[simp] theorem completeOk_params (rd : RegIdx) (v : Nat) (f : Bool) : (s.completeOk rd v f).params = s.params := rfl
@[simp] theorem completeOk_regs (rd : RegIdx) (v : Nat) (f : Bool) : (s.completeOk rd v f).regs = s.regs.set rd.val (operandOfNat s.params.words v) := rfl
@[simp] theorem completeOk_phase (rd : RegIdx) (v : Nat) (f : Bool) : (s.completeOk rd v f).phase = .idle := rfl
@[simp] theorem completeOk_cmd (rd : RegIdx) (v : Nat) (f : Bool) : (s.completeOk rd v f).cmd = s.cmd := rfl
@[simp] theorem completeOk_done (rd : RegIdx) (v : Nat) (f : Bool) : (s.completeOk rd v f).done = true := rfl
@[simp] theorem completeOk_err (rd : RegIdx) (v : Nat) (f : Bool) : (s.completeOk rd v f).err = false := rfl
@[simp] theorem completeOk_flag (rd : RegIdx) (v : Nat) (f : Bool) : (s.completeOk rd v f).flag = f := rfl
@[simp] theorem completeOk_ovr (rd : RegIdx) (v : Nat) (f : Bool) : (s.completeOk rd v f).ovr = s.ovr := rfl
@[simp] theorem completeOk_accv (rd : RegIdx) (v : Nat) (f : Bool) : (s.completeOk rd v f).accv = s.accv := rfl
@[simp] theorem completeOk_ecode (rd : RegIdx) (v : Nat) (f : Bool) : (s.completeOk rd v f).ecode = .none := rfl
@[simp] theorem completeOk_irqEn (rd : RegIdx) (v : Nat) (f : Bool) : (s.completeOk rd v f).irqEn = s.irqEn := rfl
@[simp] theorem completeOk_agenda (rd : RegIdx) (v : Nat) (f : Bool) : (s.completeOk rd v f).agenda = s.agenda := rfl
@[simp] theorem completeOk_reads (rd : RegIdx) (v : Nat) (f : Bool) : (s.completeOk rd v f).reads = s.reads := rfl

/-! ### completeErr -/

@[simp] theorem completeErr_params (c : ErrCode) : (s.completeErr c).params = s.params := rfl
@[simp] theorem completeErr_regs (c : ErrCode) : (s.completeErr c).regs = s.regs := rfl
@[simp] theorem completeErr_phase (c : ErrCode) : (s.completeErr c).phase = .idle := rfl
@[simp] theorem completeErr_cmd (c : ErrCode) : (s.completeErr c).cmd = s.cmd := rfl
@[simp] theorem completeErr_done (c : ErrCode) : (s.completeErr c).done = true := rfl
@[simp] theorem completeErr_err (c : ErrCode) : (s.completeErr c).err = true := rfl
@[simp] theorem completeErr_flag (c : ErrCode) : (s.completeErr c).flag = false := rfl
@[simp] theorem completeErr_ovr (c : ErrCode) : (s.completeErr c).ovr = s.ovr := rfl
@[simp] theorem completeErr_accv (c : ErrCode) : (s.completeErr c).accv = s.accv := rfl
@[simp] theorem completeErr_ecode (c : ErrCode) : (s.completeErr c).ecode = c := rfl
@[simp] theorem completeErr_irqEn (c : ErrCode) : (s.completeErr c).irqEn = s.irqEn := rfl
@[simp] theorem completeErr_agenda (c : ErrCode) : (s.completeErr c).agenda = s.agenda := rfl
@[simp] theorem completeErr_reads (c : ErrCode) : (s.completeErr c).reads = s.reads := rfl

/-! ### writeStatus -/

@[simp] theorem writeStatus_params (v : Word) : (s.writeStatus v).params = s.params := rfl
@[simp] theorem writeStatus_regs (v : Word) : (s.writeStatus v).regs = s.regs := rfl
@[simp] theorem writeStatus_phase (v : Word) : (s.writeStatus v).phase = s.phase := rfl
@[simp] theorem writeStatus_cmd (v : Word) : (s.writeStatus v).cmd = s.cmd := rfl
@[simp] theorem writeStatus_done (v : Word) : (s.writeStatus v).done = (s.done && !v[1]) := rfl
@[simp] theorem writeStatus_err (v : Word) : (s.writeStatus v).err = (s.err && !v[2]) := rfl
@[simp] theorem writeStatus_flag (v : Word) : (s.writeStatus v).flag = s.flag := rfl
@[simp] theorem writeStatus_ovr (v : Word) : (s.writeStatus v).ovr = (s.ovr && !v[4]) := rfl
@[simp] theorem writeStatus_accv (v : Word) : (s.writeStatus v).accv = (s.accv && !v[5]) := rfl
@[simp] theorem writeStatus_ecode (v : Word) : (s.writeStatus v).ecode = if v[2] then .none else s.ecode := rfl
@[simp] theorem writeStatus_irqEn (v : Word) : (s.writeStatus v).irqEn = s.irqEn := rfl
@[simp] theorem writeStatus_agenda (v : Word) : (s.writeStatus v).agenda = s.agenda := rfl
@[simp] theorem writeStatus_reads (v : Word) : (s.writeStatus v).reads = s.reads := rfl

/-! ### loadCommand -/

@[simp] theorem loadCommand_params (w : Word) : (s.loadCommand w).params = s.params := rfl
@[simp] theorem loadCommand_regs (w : Word) : (s.loadCommand w).regs = s.regs := rfl
@[simp] theorem loadCommand_phase (w : Word) : (s.loadCommand w).phase = .busy := rfl
@[simp] theorem loadCommand_cmd (w : Word) : (s.loadCommand w).cmd = w := rfl
@[simp] theorem loadCommand_done (w : Word) : (s.loadCommand w).done = false := rfl
@[simp] theorem loadCommand_err (w : Word) : (s.loadCommand w).err = false := rfl
@[simp] theorem loadCommand_flag (w : Word) : (s.loadCommand w).flag = false := rfl
@[simp] theorem loadCommand_ovr (w : Word) : (s.loadCommand w).ovr = s.ovr := rfl
@[simp] theorem loadCommand_accv (w : Word) : (s.loadCommand w).accv = s.accv := rfl
@[simp] theorem loadCommand_ecode (w : Word) : (s.loadCommand w).ecode = .none := rfl
@[simp] theorem loadCommand_irqEn (w : Word) : (s.loadCommand w).irqEn = s.irqEn := rfl
@[simp] theorem loadCommand_agenda (w : Word) : (s.loadCommand w).agenda = .engine :: s.agenda := rfl
@[simp] theorem loadCommand_reads (w : Word) : (s.loadCommand w).reads = s.reads := rfl

/-! ### Reads of one register after an update -/

@[simp] theorem popEvent_reg (r : RegIdx) : s.popEvent.reg r = s.reg r := rfl
@[simp] theorem popEvent_x (r : RegIdx) : s.popEvent.x r = s.x r := rfl
@[simp] theorem accept_reg (w : Word) (r : RegIdx) : (s.accept w).reg r = s.reg r := rfl
@[simp] theorem accept_x (w : Word) (r : RegIdx) : (s.accept w).x r = s.x r := rfl
@[simp] theorem markOverrun_reg (r : RegIdx) : s.markOverrun.reg r = s.reg r := rfl
@[simp] theorem markAccessViolation_reg (r : RegIdx) : s.markAccessViolation.reg r = s.reg r := rfl
@[simp] theorem completeErr_reg (c : ErrCode) (r : RegIdx) : (s.completeErr c).reg r = s.reg r := rfl
@[simp] theorem completeErr_x (c : ErrCode) (r : RegIdx) : (s.completeErr c).x r = s.x r := rfl
@[simp] theorem writeStatus_reg (v : Word) (r : RegIdx) : (s.writeStatus v).reg r = s.reg r := rfl
@[simp] theorem loadCommand_reg (w : Word) (r : RegIdx) : (s.loadCommand w).reg r = s.reg r := rfl
@[simp] theorem loadCommand_x (w : Word) (r : RegIdx) : (s.loadCommand w).x r = s.x r := rfl

@[simp] theorem applyReset_reg (r : RegIdx) :
    s.applyReset.reg r = List.replicate s.params.words 0#32 := by
  simp [State.reg]

@[simp] theorem setReg_reg_same (r : RegIdx) (v : Operand) : (s.setReg r v).reg r = v := by
  simp [State.reg]

@[simp] theorem setReg_reg_ne {r r' : RegIdx} (h : r' ≠ r) (v : Operand) :
    (s.setReg r v).reg r' = s.reg r' := by
  have : r.val ≠ r'.val := fun e => h (Fin.ext e.symm)
  simp [State.reg, this]

@[simp] theorem completeOk_reg_same (rd : RegIdx) (v : Nat) (f : Bool) :
    (s.completeOk rd v f).reg rd = operandOfNat s.params.words v := by
  simp [State.reg]

@[simp] theorem completeOk_reg_ne {rd r : RegIdx} (h : r ≠ rd) (v : Nat) (f : Bool) :
    (s.completeOk rd v f).reg r = s.reg r :=
  setReg_reg_ne s h _

/-! ### BUSY -/

@[simp] theorem busy_eq_true_iff : s.busy = true ↔ s.phase = .busy := by
  cases h : s.phase <;> simp [State.busy, h]

@[simp] theorem busy_eq_false_iff : s.busy = false ↔ s.phase = .idle := by
  cases h : s.phase <;> simp [State.busy, h]

theorem phase_idle_or_busy : s.phase = .idle ∨ s.phase = .busy := by
  cases s.phase <;> simp

/-- Handling the head of the agenda leaves the rest of it. -/
theorem popEvent_eq {s : State} {e : Event} {l : List Event} (h : s.agenda = e :: l) :
    s.popEvent = { s with agenda := l } := by
  simp [State.popEvent, h]

/-- Two states are equal when all their fields are. -/
theorem eq_of_fields {s t : State} (h : s.params = t.params ∧ s.regs = t.regs ∧ s.phase = t.phase ∧
    s.cmd = t.cmd ∧ s.done = t.done ∧ s.err = t.err ∧ s.flag = t.flag ∧ s.ovr = t.ovr ∧
    s.accv = t.accv ∧ s.ecode = t.ecode ∧ s.irqEn = t.irqEn ∧ s.agenda = t.agenda ∧
    s.reads = t.reads) : s = t := by
  cases s; cases t; simp_all

end Sys2Proof.Machine.State
end

