-- ==== Sys2Proof/Laws/Operands.lean ====
section
/-! SUPPORT. Operand registers as numbers and as words, and the words written to them. -/

namespace Sys2Proof.Machine

@[simp] theorem operandOfNat_length (words n : Nat) : (operandOfNat words n).length = words := by
  induction words generalizing n with
  | zero => rfl
  | succ words ih => simp [operandOfNat, ih]

@[simp] theorem operandSetWord_length (x : Operand) (k : Nat) (v : Word) :
    (operandSetWord x k v).length = x.length := by
  simp [operandSetWord]

theorem two_pow_32_succ (n : Nat) : 2 ^ (32 * (n + 1)) = 2 ^ 32 * 2 ^ (32 * n) := by
  rw [← pow_add]; congr 1; ring

/-- A register of n words holds a number below 2^(32n) (R7). -/
theorem operandValue_lt (x : Operand) : operandValue x < 2 ^ (32 * x.length) := by
  induction x with
  | nil => simp [operandValue]
  | cons w ws ih =>
    have := w.isLt
    rw [List.length_cons, two_pow_32_succ, operandValue]
    nlinarith

/-- `zext_W` then `uint` is reduction modulo 2^W, so it is the identity below 2^W (R14). -/
theorem operandValue_operandOfNat (words n : Nat) :
    operandValue (operandOfNat words n) = n % 2 ^ (32 * words) := by
  induction words generalizing n with
  | zero => simp [operandOfNat, operandValue, Nat.mod_one]
  | succ words ih =>
    rw [operandOfNat, operandValue, ih, two_pow_32_succ, Nat.mod_mul, BitVec.toNat_ofNat]

theorem operandValue_operandOfNat_of_lt {words n : Nat} (h : n < 2 ^ (32 * words)) :
    operandValue (operandOfNat words n) = n := by
  rw [operandValue_operandOfNat, Nat.mod_eq_of_lt h]

@[simp] theorem operandValue_replicate_zero (n : Nat) :
    operandValue (List.replicate n 0#32) = 0 := by
  induction n with
  | zero => rfl
  | succ n ih => simp [List.replicate_succ, operandValue, ih]

/-- Word k of a register is its number shifted right by 32k, modulo 2^32 (R40). -/
theorem operandWord_toNat (x : Operand) (k : Nat) :
    (operandWord x k).toNat = operandValue x / 2 ^ (32 * k) % 2 ^ 32 := by
  induction x generalizing k with
  | nil => simp [operandWord, operandValue]
  | cons w ws ih =>
    rcases k with _ | k
    · simp only [operandWord, operandValue, List.getD_cons_zero, mul_zero, pow_zero, Nat.div_one]
      rw [Nat.add_mul_mod_self_left, Nat.mod_eq_of_lt w.isLt]
    · have hw : (operandWord (w :: ws) (k + 1)) = operandWord ws k := by
        simp [operandWord]
      rw [hw, ih, operandValue, two_pow_32_succ, ← Nat.div_div_eq_div_mul,
        Nat.add_mul_div_left _ _ (by positivity), Nat.div_eq_of_lt w.isLt, zero_add]

theorem testBit_cons (w : Word) (ws : Operand) (i : Nat) :
    (operandValue (w :: ws)).testBit i =
      if i < 32 then w.getLsbD i else (operandValue ws).testBit (i - 32) := by
  have h : operandValue (w :: ws) = 2 ^ 32 * operandValue ws + w.toNat := by
    rw [operandValue, Nat.add_comm]
  rw [h, Nat.testBit_two_pow_mul_add _ w.isLt]
  rfl

/-- Writing word k replaces bits 32k+31 to 32k and no other bit (R42). -/
theorem operandSetWord_testBit (x : Operand) (k : Nat) (v : Word) (hk : k < x.length) (i : Nat) :
    (operandValue (operandSetWord x k v)).testBit i =
      if 32 * k ≤ i ∧ i < 32 * k + 32 then v.getLsbD (i - 32 * k)
      else (operandValue x).testBit i := by
  induction x generalizing k i with
  | nil => simp at hk
  | cons w ws ih =>
    rcases k with _ | k
    · simp only [operandSetWord, List.set_cons_zero, testBit_cons]
      by_cases hi : i < 32 <;> simp [hi]
    · have hs : operandSetWord (w :: ws) (k + 1) v = w :: operandSetWord ws k v := by
        simp [operandSetWord]
      rw [hs, testBit_cons, testBit_cons, ih _ (by simpa using hk)]
      by_cases hi : i < 32
      · rw [if_pos hi, if_pos hi, if_neg (by omega)]
      · rw [if_neg hi, if_neg hi]
        by_cases h2 : 32 * (k + 1) ≤ i ∧ i < 32 * (k + 1) + 32
        · rw [if_pos h2, if_pos (by omega)]; congr 1; omega
        · rw [if_neg h2, if_neg (by omega)]

theorem operandWord_operandSetWord_same (x : Operand) (k : Nat) (v : Word) (hk : k < x.length) :
    operandWord (operandSetWord x k v) k = v := by
  simp [operandWord, operandSetWord, hk]

theorem operandWord_operandSetWord_ne (x : Operand) {j k : Nat} (v : Word) (h : j ≠ k) :
    operandWord (operandSetWord x k v) j = operandWord x j := by
  simp [operandWord, operandSetWord, h.symm]

/-- Registers of the same number of words with the same number are the same. -/
theorem operand_ext {x y : Operand} (hl : x.length = y.length)
    (hv : operandValue x = operandValue y) : x = y := by
  refine List.ext_getElem hl fun k h1 h2 => ?_
  apply BitVec.eq_of_toNat_eq
  have h := operandWord_toNat x k
  rw [hv, ← operandWord_toNat y k] at h
  simpa [operandWord, List.getD_eq_getElem?_getD, h1, h2] using h

/-- Completion writes the register whole: its number is the result when that is below 2^W. -/
theorem State.completeOk_x_same (s : State) (rd : RegIdx) {v : Nat} (f : Bool)
    (h : v < 2 ^ s.params.width) : (s.completeOk rd v f).x rd = v := by
  rw [State.x, State.completeOk_reg_same]
  exact operandValue_operandOfNat_of_lt h

theorem State.completeOk_x_ne (s : State) {rd r : RegIdx} (hr : r ≠ rd) (v : Nat) (f : Bool) :
    (s.completeOk rd v f).x r = s.x r := by
  rw [State.x, State.completeOk_reg_ne _ hr, State.x]

end Sys2Proof.Machine
end

