-- ==== Sys2Proof/Laws/Ops.lean ====
section
/-! SUPPORT. What a completion does, once: the two kinds of completion, and that every command is one of
them. -/

namespace Sys2Proof.Machine

theorem State.WellSized.x_lt {s : State} (h : s.WellSized) (r : RegIdx) :
    s.x r < 2 ^ s.params.width := by
  have := operandValue_lt (s.reg r)
  rwa [h r] at this

/-- A successful completion with a result below 2^W is what `CompletedOk` says (R70). -/
theorem completedOk_completeOk (s : State) (rd : RegIdx) {v : Nat} (f : Bool)
    (h : v < 2 ^ s.params.width) : CompletedOk s (s.completeOk rd v f) rd v f where
  result := s.completeOk_x_same rd f h
  width := by simp
  others := fun _ hr => s.completeOk_reg_ne hr v f
  flag := rfl
  err := rfl
  ecode := rfl
  done := rfl
  phase := rfl
  unchanged := ⟨rfl, rfl, rfl, rfl, rfl, rfl, rfl⟩

/-- A completion with an error is what `CompletedErr` says (R94). -/
theorem completedErr_completeErr (s : State) (c : ErrCode) : CompletedErr s (s.completeErr c) c where
  regs := fun _ => rfl
  flag := rfl
  err := rfl
  ecode := rfl
  done := rfl
  phase := rfl
  unchanged := ⟨rfl, rfl, rfl, rfl, rfl, rfl, rfl⟩

@[simp] theorem complete_ok (s : State) (rd : RegIdx) (v : Nat) (f : Bool) :
    s.complete rd (.ok v f) = s.completeOk rd v f := rfl

@[simp] theorem complete_err (s : State) (rd : RegIdx) (c : ErrCode) :
    s.complete rd (.err c) = s.completeErr c := rfl

/-- `execute` of R69: what the command `i` computes of the operand registers of `s`. -/
def resultOf (i : Instr) (s : State) : Result :=
  match i with
  | .modred _ a m => modredResult (s.x a) (s.x m)
  | .modmul _ a b m => modmulResult (s.x a) (s.x b) (s.x m)
  | .montmul _ a b m => montmulResult s.params.width (s.x a) (s.x b) (s.x m)
  | .modexp _ base exp m => modexpResult (s.x base) (s.x exp) (s.x m)
  | .mrwit _ x a => mrwitResult (s.x x) (s.x a)
  | .gcd _ a b => gcdResult (s.x a) (s.x b)
  | .modinv _ a m => modinvResult (s.x a) (s.x m)
  | .crt _ m1 m2 p q qinv => crtResult s.params.width (s.x m1) (s.x m2) (s.x p) (s.x q) (s.x qinv)

/-- Every command completes, with what it computes (R69, R70). -/
theorem exec_eq_complete (i : Instr) (s : State) :
    exec i s = .next (s.complete i.dest (resultOf i s)) := by
  cases i <;> rfl

/-- The two ways a command completes (R70). -/
theorem exec_cases {i : Instr} {s t : State} (h : exec i s = .next t) :
    (∃ v f, resultOf i s = .ok v f ∧ t = s.completeOk i.dest v f) ∨
      (∃ c, resultOf i s = .err c ∧ t = s.completeErr c) := by
  rw [exec_eq_complete] at h
  cases h
  cases hr : resultOf i s with
  | ok v f => exact .inl ⟨v, f, rfl, rfl⟩
  | err c => exact .inr ⟨c, rfl, rfl⟩

end Sys2Proof.Machine
end

