-- ==== Sys2Proof/Laws/Bus.lean ====
section
/-! SUPPORT. The address map, and what a bus read and a bus write can do. -/

namespace Sys2Proof.Machine

@[simp] theorem busTarget_id : busTarget 0x000#16 = .id := by decide
@[simp] theorem busTarget_param : busTarget 0x004#16 = .param := by decide
@[simp] theorem busTarget_cmd : busTarget 0x008#16 = .cmd := by decide
@[simp] theorem busTarget_status : busTarget 0x00C#16 = .status := by decide
@[simp] theorem busTarget_ctrl : busTarget 0x010#16 = .ctrl := by decide

theorem windowAddr_toNat (r : RegIdx) {k : Nat} (hk : k < 256) :
    (windowAddr r k).toNat = 0x1000 + 0x400 * r.val + 4 * k := by
  have := r.isLt
  rw [windowAddr, BitVec.toNat_ofNat, Nat.mod_eq_of_lt (by omega)]

/-- The window address WA(r, k) names word k of the window of r (R40). -/
@[simp] theorem busTarget_windowAddr (r : RegIdx) {k : Nat} (hk : k < 256) :
    busTarget (windowAddr r k) = .window r k := by
  have hr := r.isLt
  have ha : alignedAddr (windowAddr r k) = 0x1000 + 0x400 * r.val + 4 * k := by
    rw [alignedAddr, windowAddr_toNat r hk]; omega
  unfold busTarget
  simp only [ha]
  rw [if_neg (by omega), if_neg (by omega), if_neg (by omega), if_neg (by omega), if_neg (by omega),
    if_pos (by omega)]
  have h1 : (0x1000 + 0x400 * r.val + 4 * k - 0x1000) / 0x400 = r.val := by omega
  have h2 : (0x1000 + 0x400 * r.val + 4 * k) % 0x400 / 4 = k := by omega
  rw [h1, h2]
  congr 1
  ext
  simp [Fin.ofNat, Nat.mod_eq_of_lt hr]

/-- The addresses of the operand windows (R39). -/
theorem busTarget_window_iff (a : Addr) :
    (∃ r k, busTarget a = .window r k) ↔ 0x1000 ≤ a.toNat ∧ a.toNat < 0x5000 := by
  unfold busTarget alignedAddr
  dsimp only
  split_ifs <;> simp <;> omega

/-- The reserved addresses (R39). -/
theorem busTarget_reserved_iff (a : Addr) :
    busTarget a = .reserved ↔ (0x14 ≤ a.toNat ∧ a.toNat < 0x1000) ∨ 0x5000 ≤ a.toNat := by
  unfold busTarget alignedAddr
  dsimp only
  split_ifs <;> simp <;> omega

/-- A bus read: a window read while BUSY sets ACCV; otherwise only the returned word is recorded
(R41, R46). -/
theorem busRead_cases (s : State) (a : Addr) :
    (s.phase = .busy ∧ (∃ r k, busTarget a = .window r k) ∧
        s.busRead a = { s with accv := true, reads := 0#32 :: s.reads }) ∨
      s.busRead a = { s with reads := s.busPeek a :: s.reads } := by
  rcases s.phase_idle_or_busy with hp | hp
  · right
    cases h : busTarget a <;>
      simp [State.busRead, State.readEffect, h, State.busy, hp]
  · cases h : busTarget a with
    | window r k =>
      left
      refine ⟨hp, ⟨r, k, rfl⟩, ?_⟩
      simp [State.busRead, State.readEffect, State.busPeek, State.readValue, h, State.busy, hp,
        State.markAccessViolation]
    | _ => right; simp [State.busRead, State.readEffect, h]

/-- A bus read leaves everything but ACCV and the words read as it was, and never clears ACCV (R46). -/
theorem busRead_frame (s : State) (a : Addr) :
    (s.busRead a).params = s.params ∧ (s.busRead a).regs = s.regs ∧
      (s.busRead a).phase = s.phase ∧ (s.busRead a).cmd = s.cmd ∧ (s.busRead a).done = s.done ∧
      (s.busRead a).err = s.err ∧ (s.busRead a).flag = s.flag ∧ (s.busRead a).ovr = s.ovr ∧
      (s.busRead a).ecode = s.ecode ∧ (s.busRead a).irqEn = s.irqEn ∧
      (s.busRead a).agenda = s.agenda ∧ (s.accv = true → (s.busRead a).accv = true) := by
  rcases busRead_cases s a with ⟨-, -, h⟩ | h <;> rw [h] <;> simp

/-- The cases of a bus write: what a host can do to the block. -/
inductive WriteEffect (s : State) (a : Addr) (v : Word) : State → Prop where
  /-- Ignored: a read-only register, a reserved address, a window word k ≥ W/32 (R24, R42, R45). -/
  | ignored : WriteEffect s a v s
  /-- A CMD write accepted while IDLE (R67). -/
  | accepted : busTarget a = .cmd → s.phase = .idle → WriteEffect s a v (s.accept v)
  /-- A CMD write dropped while BUSY (R68). -/
  | dropped : busTarget a = .cmd → s.phase = .busy → WriteEffect s a v s.markOverrun
  /-- A STATUS write (R28). -/
  | status : busTarget a = .status → WriteEffect s a v (s.writeStatus v)
  /-- The soft reset (R109). -/
  | softReset : busTarget a = .ctrl → v[1] = true → WriteEffect s a v s.applyReset
  /-- A CTRL write that sets IRQ_EN (R35). -/
  | irqEn : busTarget a = .ctrl → v[1] = false →
      WriteEffect s a v { s with irqEn := v[0] }
  /-- A window write dropped while BUSY (R34). -/
  | refused (r : RegIdx) (k : Nat) : busTarget a = .window r k → s.phase = .busy →
      WriteEffect s a v s.markAccessViolation
  /-- A window write while IDLE (R42). -/
  | window (r : RegIdx) (k : Nat) : busTarget a = .window r k → s.phase = .idle →
      k < s.params.words →
      WriteEffect s a v (s.setReg r (operandSetWord (s.reg r) k v))

/-- Every bus write is one of the cases. -/
theorem busWrite_cases (s : State) (a : Addr) (v : Word) : WriteEffect s a v (s.busWrite a v) := by
  unfold State.busWrite State.writeTarget
  cases h : busTarget a with
  | id => exact .ignored
  | param => exact .ignored
  | reserved => exact .ignored
  | status => exact .status h
  | cmd =>
    dsimp only [State.writeCmd]
    cases hp : s.phase with
    | idle => exact .accepted h hp
    | busy => exact .dropped h hp
  | ctrl =>
    dsimp only [State.writeCtrl]
    cases hv : v[1] with
    | true => exact .softReset h hv
    | false => exact .irqEn h hv
  | window r k =>
    dsimp only [State.writeWindow]
    rcases s.phase_idle_or_busy with hp | hp
    · rw [if_neg (by simp [State.busy, hp])]
      split
      · exact .window r k h hp ‹_›
      · exact .ignored
    · rw [if_pos (by simp [State.busy, hp])]
      exact .refused r k h hp

end Sys2Proof.Machine
end

