-- ==== Sys2Proof/Laws/Decode.lean ====
section
/-! SUPPORT. The field packing of format R6 loses no bit, and what the field decoder accepts. -/

namespace Sys2Proof

theorem regBits_toFin (r : RegIdx) : (regBits r).toFin = r := rfl

theorem regBits_of_toFin (b : BitVec 4) : regBits b.toFin = b := rfl

@[simp] theorem toWord_op (f : Fields) : f.toWord.extractLsb' 0 8 = f.op := by
  ext i hi
  interval_cases i <;> simp [Fields.toWord, placeField]

@[simp] theorem toWord_rd (f : Fields) : f.toWord.extractLsb' 8 4 = regBits f.rd := by
  ext i hi
  interval_cases i <;> simp [Fields.toWord, placeField]

@[simp] theorem toWord_rs1 (f : Fields) : f.toWord.extractLsb' 12 4 = regBits f.rs1 := by
  ext i hi
  interval_cases i <;> simp [Fields.toWord, placeField]

@[simp] theorem toWord_rs2 (f : Fields) : f.toWord.extractLsb' 16 4 = regBits f.rs2 := by
  ext i hi
  interval_cases i <;> simp [Fields.toWord, placeField]

@[simp] theorem toWord_rs3 (f : Fields) : f.toWord.extractLsb' 20 4 = regBits f.rs3 := by
  ext i hi
  interval_cases i <;> simp [Fields.toWord, placeField]

@[simp] theorem toWord_rs4 (f : Fields) : f.toWord.extractLsb' 24 4 = regBits f.rs4 := by
  ext i hi
  interval_cases i <;> simp [Fields.toWord, placeField]

@[simp] theorem toWord_rs5 (f : Fields) : f.toWord.extractLsb' 28 4 = regBits f.rs5 := by
  ext i hi
  interval_cases i <;> simp [Fields.toWord, placeField]

/-- Cutting a packed word into fields gives the fields back (R56). -/
@[simp] theorem fieldsOf_toWord (f : Fields) : fieldsOf f.toWord = f := by
  cases f; simp [fieldsOf, regBits_toFin]

/-- Packing the fields of a word gives the word back: every bit belongs to a field (R56). -/
@[simp] theorem toWord_fieldsOf (w : Word) : (fieldsOf w).toWord = w := by
  have h : (fieldsOf w).toWord = placeField (w.extractLsb' 0 8) 0 |||
      placeField (w.extractLsb' 8 4) 8 ||| placeField (w.extractLsb' 12 4) 12 |||
      placeField (w.extractLsb' 16 4) 16 ||| placeField (w.extractLsb' 20 4) 20 |||
      placeField (w.extractLsb' 24 4) 24 ||| placeField (w.extractLsb' 28 4) 28 := rfl
  rw [h]
  ext i hi
  interval_cases i <;> simp [placeField]

/-- A field of bits that a mask keeps is a field of the masked word. -/
theorem extract_of_mask {w c M : Word} (h : w &&& M = c) (lo len : Nat)
    (hm : ∀ i < len, M.getLsbD (lo + i) = true) : w.extractLsb' lo len = c.extractLsb' lo len := by
  subst h
  ext i hi
  simp [hm i hi]

/-- The fields a match fixes in a row whose unused fields are rs3, rs4 and rs5 (R58). -/
theorem fields_of_mask_rs345 {w c : Word} (h : w &&& 0xFFF000FF#32 = c) :
    (fieldsOf w).op = c.extractLsb' 0 8 ∧ (fieldsOf w).rs3 = (c.extractLsb' 20 4).toFin ∧
      (fieldsOf w).rs4 = (c.extractLsb' 24 4).toFin ∧
      (fieldsOf w).rs5 = (c.extractLsb' 28 4).toFin :=
  ⟨extract_of_mask h 0 8 (by decide), congrArg BitVec.toFin (extract_of_mask h 20 4 (by decide)),
    congrArg BitVec.toFin (extract_of_mask h 24 4 (by decide)),
    congrArg BitVec.toFin (extract_of_mask h 28 4 (by decide))⟩

/-- The fields a match fixes in a row whose unused fields are rs4 and rs5 (R58). -/
theorem fields_of_mask_rs45 {w c : Word} (h : w &&& 0xFF0000FF#32 = c) :
    (fieldsOf w).op = c.extractLsb' 0 8 ∧ (fieldsOf w).rs4 = (c.extractLsb' 24 4).toFin ∧
      (fieldsOf w).rs5 = (c.extractLsb' 28 4).toFin :=
  ⟨extract_of_mask h 0 8 (by decide), congrArg BitVec.toFin (extract_of_mask h 24 4 (by decide)),
    congrArg BitVec.toFin (extract_of_mask h 28 4 (by decide))⟩

/-- The field a match fixes in a row without unused fields (R58). -/
theorem fields_of_mask_op {w c : Word} (h : w &&& 0x000000FF#32 = c) :
    (fieldsOf w).op = c.extractLsb' 0 8 :=
  extract_of_mask h 0 8 (by decide)

/-- The field decoder reads a command from its own fields. -/
@[simp] theorem decodeFields_fields (i : Instr) : decodeFields i.fields = .ok i := by
  cases i <;> rfl

/-- What the field decoder accepts: the fields of the command it answers, and nothing else. -/
theorem fields_of_decodeFields {f : Fields} {i : Instr} (h : decodeFields f = .ok i) :
    i.fields = f := by
  rcases f with ⟨op, rd, rs1, rs2, rs3, rs4, rs5⟩
  have hop : ∀ n, op.toNat = n → op = BitVec.ofNat 8 n := fun n hn => by
    rw [← hn, BitVec.ofNat_toNat, BitVec.setWidth_eq]
  unfold decodeFields at h
  split at h <;> first
    | (rename_i h1
       split at h
       · rename_i h2
         cases h
         have := hop _ h1
         simp_all [Instr.fields]
       · cases h)
    | (rename_i h1
       cases h
       have := hop _ h1
       simp_all [Instr.fields])
    | cases h

end Sys2Proof
end

