-- ==== Sys2Proof/Laws/PerInstr.lean ====
section
/-! SUPPORT. Statements made per instruction: the fields of every command are well formed, its word
selects its own row of the opcode map and no other, and its fields name its destination. -/

namespace Sys2Proof.Laws.EncodesItsRow

/-- The fields of `i` are well formed (R59), its opcode is the low byte of its row's match (R58), and
rd is its destination (R56). -/
def Statement (i : Instr) : Prop :=
  i.fields.wf = true ∧ i.fields.rd = i.dest ∧
    ∃ row ∈ opcodeMap, row.name = i.name ∧ row.matchBits = placeField i.fields.op 0

theorem modred (rd a m : RegIdx) : Statement (.modred rd a m) :=
  ⟨rfl, rfl, opcodeMap[0], by decide, rfl, rfl⟩
theorem modmul (rd a b m : RegIdx) : Statement (.modmul rd a b m) :=
  ⟨by simp [Instr.fields, Fields.wf, Fields.opDefined, Fields.rs3Clear, Fields.rs4Clear,
    Fields.rs5Clear], rfl, opcodeMap[1], by decide, rfl, rfl⟩
theorem montmul (rd a b m : RegIdx) : Statement (.montmul rd a b m) :=
  ⟨by simp [Instr.fields, Fields.wf, Fields.opDefined, Fields.rs3Clear, Fields.rs4Clear,
    Fields.rs5Clear], rfl, opcodeMap[2], by decide, rfl, rfl⟩
theorem modexp (rd base exp m : RegIdx) : Statement (.modexp rd base exp m) :=
  ⟨by simp [Instr.fields, Fields.wf, Fields.opDefined, Fields.rs3Clear, Fields.rs4Clear,
    Fields.rs5Clear], rfl, opcodeMap[3], by decide, rfl, rfl⟩
theorem mrwit (rd x a : RegIdx) : Statement (.mrwit rd x a) :=
  ⟨rfl, rfl, opcodeMap[4], by decide, rfl, rfl⟩
theorem gcd (rd a b : RegIdx) : Statement (.gcd rd a b) :=
  ⟨rfl, rfl, opcodeMap[5], by decide, rfl, rfl⟩
theorem modinv (rd a m : RegIdx) : Statement (.modinv rd a m) :=
  ⟨rfl, rfl, opcodeMap[6], by decide, rfl, rfl⟩
theorem crt (rd m1 m2 p q qinv : RegIdx) : Statement (.crt rd m1 m2 p q qinv) :=
  ⟨by simp [Instr.fields, Fields.wf, Fields.opDefined, Fields.rs3Clear, Fields.rs4Clear,
    Fields.rs5Clear], rfl, opcodeMap[7], by decide, rfl, rfl⟩

end Sys2Proof.Laws.EncodesItsRow
end

