-- ==== Sys2Proof/Laws/Step.lean ====
section
/-! SUPPORT. What one step can do, once: the inversion lemmas every invariant is derived from. -/

namespace Sys2Proof.Machine

theorem engineTurn_idle {s : State} (h : s.phase = .idle) : engineTurn s = .next s := by
  simp [engineTurn, h]

theorem engineTurn_ok {s : State} {i : Instr} (h : s.phase = .busy) (hd : decode s.cmd = .ok i) :
    engineTurn s = exec i s := by
  simp [engineTurn, h, hd]

theorem engineTurn_illegal {s : State} {e : Illegal} (h : s.phase = .busy)
    (hd : decode s.cmd = .error e) : engineTurn s = .next (s.completeErr .illegalCmd) := by
  simp [engineTurn, h, hd]

/-- The engine's turn: nothing while IDLE; while BUSY the completion of the command in CMD, successful
or with an error (R66, R70). -/
inductive EngineEffect (s : State) : State → Prop where
  | idle : s.phase = .idle → EngineEffect s s
  | ok (i : Instr) (v : Nat) (f : Bool) : s.phase = .busy → decode s.cmd = .ok i →
      resultOf i s = .ok v f → EngineEffect s (s.completeOk i.dest v f)
  | err (i : Instr) (c : ErrCode) : s.phase = .busy → decode s.cmd = .ok i →
      resultOf i s = .err c → EngineEffect s (s.completeErr c)
  | illegal (e : Illegal) : s.phase = .busy → decode s.cmd = .error e →
      EngineEffect s (s.completeErr .illegalCmd)

/-- The engine's turn always gives a next state, one of the cases. -/
theorem engineTurn_cases (s : State) : ∃ t, engineTurn s = .next t ∧ EngineEffect s t := by
  rcases s.phase_idle_or_busy with hp | hp
  · exact ⟨s, engineTurn_idle hp, .idle hp⟩
  · cases hd : decode s.cmd with
    | error e => exact ⟨_, engineTurn_illegal hp hd, .illegal e hp hd⟩
    | ok i =>
      refine ⟨_, (engineTurn_ok hp hd).trans (exec_eq_complete i s), ?_⟩
      cases hr : resultOf i s with
      | ok v f => exact .ok i v f hp hd hr
      | err c => exact .err i c hp hd hr

/-- What one step can do, by the head of the agenda (R48, R66). -/
inductive StepEffect (s : State) : State → Prop where
  /-- The engine has its turn and the agenda stays: it is empty, or its head waits (R64, R71). -/
  | turn {t : State} : (s.agenda = [] ∨ (∃ l, s.agenda = .waitIdle :: l ∧ s.phase = .busy) ∨
      (∃ l, s.agenda = .waitIrq :: l ∧ s.irq = false)) → EngineEffect s t → StepEffect s t
  /-- The engine has a turn of its own on the agenda. -/
  | engine {t : State} (l : List Event) : s.agenda = .engine :: l → EngineEffect s.popEvent t →
      StepEffect s t
  /-- A bus read, or the successful last poll of a `wait`. -/
  | read (a : Addr) (l : List Event) : (s.agenda = .read a :: l ∨
      (s.agenda = .waitIdle :: l ∧ a = 0x00C#16 ∧ s.phase = .idle)) →
      StepEffect s (s.popEvent.busRead a)
  /-- A bus write. -/
  | write {t : State} (a : Addr) (v : Word) (l : List Event) : s.agenda = .write a v :: l →
      WriteEffect s.popEvent a v t → StepEffect s t
  /-- The reset input. -/
  | reset (l : List Event) : s.agenda = .reset :: l → StepEffect s s.popEvent.applyReset
  /-- The interrupt the host waited for is asserted. -/
  | irq (l : List Event) : s.agenda = .waitIrq :: l → s.irq = true → StepEffect s s.popEvent

/-- Every step gives a next state, one of the cases: the machine never stops (R95). -/
theorem step_cases (s : State) : ∃ t, step s = .next t ∧ StepEffect s t := by
  unfold step nextEvent
  cases ha : s.agenda with
  | nil =>
    obtain ⟨t, h, e⟩ := engineTurn_cases s
    exact ⟨t, h, .turn (.inl ha) e⟩
  | cons ev l =>
    cases ev with
    | read a => exact ⟨_, rfl, .read a l (.inl ha)⟩
    | write a v => exact ⟨_, rfl, .write a v l ha (busWrite_cases _ a v)⟩
    | reset => exact ⟨_, rfl, .reset l ha⟩
    | engine =>
      obtain ⟨t, h, e⟩ := engineTurn_cases s.popEvent
      exact ⟨t, h, .engine l ha e⟩
    | waitIdle =>
      dsimp only
      rcases s.phase_idle_or_busy with hp | hp
      · rw [if_neg (by simp [State.busy, hp])]
        exact ⟨_, rfl, .read 0x00C#16 l (.inr ⟨ha, rfl, hp⟩)⟩
      · rw [if_pos (by simp [State.busy, hp])]
        obtain ⟨t, h, e⟩ := engineTurn_cases s
        exact ⟨t, h, .turn (.inr (.inl ⟨l, ha, hp⟩)) e⟩
    | waitIrq =>
      dsimp only
      cases hi : s.irq with
      | true => exact ⟨_, rfl, .irq l ha hi⟩
      | false =>
        obtain ⟨t, h, e⟩ := engineTurn_cases s
        exact ⟨t, h, .turn (.inr (.inr ⟨l, ha, hi⟩)) e⟩

/-- If a step answers `t`, then `t` is one of the cases. -/
theorem step_inv {s t : State} (h : step s = .next t) : StepEffect s t := by
  obtain ⟨t', h', e⟩ := step_cases s
  rw [h] at h'
  cases h'
  exact e

/-! ### The step for each head of the agenda -/

theorem step_nil {s : State} (h : s.agenda = []) : step s = engineTurn s := by
  simp [step, nextEvent, h]

theorem step_engine {s : State} {l : List Event} (h : s.agenda = .engine :: l) :
    step s = engineTurn s.popEvent := by
  simp [step, nextEvent, h]

theorem step_read {s : State} {a : Addr} {l : List Event} (h : s.agenda = .read a :: l) :
    step s = .next (s.popEvent.busRead a) := by
  simp [step, nextEvent, h]

theorem step_write {s : State} {a : Addr} {v : Word} {l : List Event}
    (h : s.agenda = .write a v :: l) : step s = .next (s.popEvent.busWrite a v) := by
  simp [step, nextEvent, h]

theorem step_reset {s : State} {l : List Event} (h : s.agenda = .reset :: l) :
    step s = .next s.popEvent.applyReset := by
  simp [step, nextEvent, h]

theorem step_waitIdle_busy {s : State} {l : List Event} (h : s.agenda = .waitIdle :: l)
    (hp : s.phase = .busy) : step s = engineTurn s := by
  simp [step, nextEvent, h, State.busy, hp]

theorem step_waitIdle_idle {s : State} {l : List Event} (h : s.agenda = .waitIdle :: l)
    (hp : s.phase = .idle) : step s = .next (s.popEvent.busRead 0x00C#16) := by
  simp [step, nextEvent, h, State.busy, hp]

theorem step_waitIrq_low {s : State} {l : List Event} (h : s.agenda = .waitIrq :: l)
    (hi : s.irq = false) : step s = engineTurn s := by
  simp [step, nextEvent, h, hi]

/-- On the engine's turn the step is the engine's, on the state without its event. -/
theorem step_enginesTurn {s : State} {rest : List Event} (h : s.EnginesTurn rest) :
    step s = engineTurn { s with agenda := rest } := by
  obtain ⟨hp, ⟨ha, rfl⟩ | ha | ⟨l, ha, rfl⟩ | ⟨l, ha, hi, rfl⟩⟩ := h
  · rw [step_nil ha, ← ha]
  · rw [step_engine ha, State.popEvent_eq ha]
  · rw [step_waitIdle_busy ha hp]
  · rw [step_waitIrq_low ha hi]

theorem step_enginesTurn_cases {s : State} {rest : List Event} (h : s.EnginesTurn rest) :
    ∃ t, step s = .next t ∧ EngineEffect { s with agenda := rest } t := by
  rw [step_enginesTurn h]
  exact engineTurn_cases _

/-- If the engine's turn answers `t`, then `t` is one of its cases. -/
theorem step_enginesTurn_inv {s t : State} {rest : List Event} (h : s.EnginesTurn rest)
    (ht : step s = .next t) : EngineEffect { s with agenda := rest } t := by
  obtain ⟨t', h1, h2⟩ := step_enginesTurn_cases h
  rw [h1] at ht
  cases ht
  exact h2

/-- An accepted word placed by `withFetchWord` runs as the very next step. -/
theorem step_withFetchWord (s : State) (nbits w : Nat) {i : Instr}
    (h : decode (wordOfTable nbits w) = .ok i) :
    step (s.withFetchWord nbits w) = exec i (s.accept (wordOfTable nbits w)) := by
  have hs : (s.withFetchWord nbits w).popEvent = s.accept (wordOfTable nbits w) := rfl
  rw [step_engine (l := s.agenda) rfl, hs]
  exact engineTurn_ok rfl h

/-- The memory operations of this block are its window accesses: every step keeps the registers W bits
wide (R21). -/
theorem State.WellSized.setReg {s : State} (h : s.WellSized) {r : RegIdx} {v : Operand}
    (hv : v.length = s.params.words) : (s.setReg r v).WellSized := by
  intro r'
  by_cases hr : r' = r
  · subst hr; simpa using hv
  · simpa [hr] using h r'

end Sys2Proof.Machine
end

