-- ==== Sys2Proof/Tests/Slice0.lean ====
section
/-! SUPPORT. Tests: words and values from 95_test_vectors.md and the worked examples of the rules; ill-formed
terms the checks refuse; and, for each statement with hypotheses, states that meet them. -/

namespace Sys2Proof.Tests

open Sys2Proof.Machine

/-! ### Helpers -/

/-- The configuration of the spec's vectors: W = 64, WIN = 1. -/
def p64 : Params := ⟨2, 1, by decide, by decide, by decide, by decide⟩

/-- W = 128. -/
def p128 : Params := ⟨4, 1, by decide, by decide, by decide, by decide⟩

/-- Reset, then the registers set and the word `w` accepted with its completion next. -/
def mkAt (p : Params) (xs : List (RegIdx × Nat)) (w : Word) : State :=
  (xs.foldl (fun s x => s.setReg x.1 (operandOfNat p.words x.2)) (State.resetOf p)).loadCommand w

/-- The start of a vector at W = 64: x3 holds 0xdead before it. -/
def mk (xs : List (RegIdx × Nat)) (w : Word) : State := mkAt p64 ((3, 0xdead) :: xs) w

/-- What `f` sees in the state an outcome gives. -/
def after {α : Type} (o : Host.Outcome State Fault Refusal) (f : State → α) : Option α :=
  match o with
  | .next s => some (f s)
  | _ => none

/-- The columns of a vector: x3 after, and STATUS after. -/
def row (s : State) : Option (Nat × Word) := after (step s) fun t => (t.x 3, t.statusWord)

def idle : State := State.resetOf p64

/-- MODEXP x4, x1, x2, x3 executing (program P5, step 4). -/
def busy : State := idle.accept 0x00321404#32

/-- `s` with the agenda `l`. -/
def todo (l : List Event) (s : State) : State := { s with agenda := l }

/-! ### Well-formedness: one ill-formed term for each check -/

theorem test_wf_refuses_op_zero : Fields.opDefined ⟨0x00#8, 0, 0, 0, 0, 0, 0⟩ = false := by decide
theorem test_wf_refuses_op_nine : Fields.opDefined ⟨0x09#8, 0, 0, 0, 0, 0, 0⟩ = false := by decide
theorem test_wf_refuses_rs3 : Fields.rs3Clear ⟨0x05#8, 3, 1, 2, 15, 0, 0⟩ = false := by decide
theorem test_wf_refuses_rs4 : Fields.rs4Clear ⟨0x02#8, 3, 1, 2, 4, 1, 0⟩ = false := by decide
theorem test_wf_refuses_rs5 : Fields.rs5Clear ⟨0x06#8, 3, 1, 2, 0, 0, 1⟩ = false := by decide
theorem test_wf_whole : Fields.wf ⟨0x01#8, 0, 0, 0, 1, 0, 0⟩ = false ∧
    Fields.wf ⟨0x08#8, 15, 15, 15, 15, 15, 15⟩ = true := by decide
theorem test_width_refused : Params.ofWidth 65 4 = none ∧ Params.ofWidth 32 4 = none ∧
    Params.ofWidth 8224 4 = none ∧ Params.ofWidth 4096 0 = none ∧ Params.ofWidth 4096 7 = none := by
  decide
theorem test_width_accepted : Params.ofWidth 4096 4 = some Config.reference ∧
    Params.ofWidth 64 1 = some p64 := by decide

/-! ### Decoding (95_test_vectors.md section 2) -/

theorem test_decode_modred : decode 0x00021301#32 = .ok (.modred 3 1 2) := by decide
theorem test_decode_modmul : decode 0x00421302#32 = .ok (.modmul 3 1 2 4) := by decide
theorem test_decode_montmul : decode 0x00421303#32 = .ok (.montmul 3 1 2 4) := by decide
theorem test_decode_modexp : decode 0x00421304#32 = .ok (.modexp 3 1 2 4) := by decide
theorem test_decode_mrwit : decode 0x00021305#32 = .ok (.mrwit 3 1 2) := by decide
theorem test_decode_gcd : decode 0x00021306#32 = .ok (.gcd 3 1 2) := by decide
theorem test_decode_modinv : decode 0x00021307#32 = .ok (.modinv 3 1 2) := by decide
theorem test_decode_crt : decode 0x65421308#32 = .ok (.crt 3 1 2 4 5 6) ∧
    decode 0xFFFFFF08#32 = .ok (.crt 15 15 15 15 15 15) := by decide
/-- R58's pattern of MODEXP, bit by bit: rd = 3, rs1 = 1, rs2 = 2, rs3 = 4. -/
theorem test_decode_modexp_bits :
    decode 0b00000000010000100001001100000100#32 = .ok (.modexp 3 1 2 4) := by decide
theorem test_decode_illegal_op : decode 0x00000000#32 = .error .undefinedOpcode ∧
    decode 0x00000009#32 = .error .undefinedOpcode ∧
    decode 0x000000FF#32 = .error .undefinedOpcode := by decide
theorem test_decode_illegal_field : decode 0x00100001#32 = .error .unusedFieldNonzero ∧
    decode 0x10021306#32 = .error .unusedFieldNonzero ∧
    decode 0x01421302#32 = .error .unusedFieldNonzero ∧
    decode 0x00F21305#32 = .error .unusedFieldNonzero := by decide
theorem test_encode : encode (.montmul 7 5 4 1) = 0x00145703#32 ∧
    encode (.crt 9 4 5 1 2 13) = 0xD2154908#32 := by decide
theorem test_assemble : assemble (.op "modexp" [14, 0, 3, 8]) = some 0x00830E04#32 ∧
    assemble (.op "tomont" [8, 6, 4, 1]) = some 0x00146803#32 ∧
    assemble (.op "frommont" [11, 9, 10, 1]) = some 0x001A9B03#32 := by decide
theorem test_decode_table : decodeTableWord 32 0x00021301 = some (.modred 3 1 2) ∧
    decodeTableWord 32 0 = none := by decide

/-! ### Commands: at most two vectors each (95_test_vectors.md sections 3 to 6) -/

theorem test_modred : row (mk [(1, 0xffffffffffffffff), (2, 0x100000000)] 0x00021301#32) =
    some (0xffffffff, 0x0002#32) := by decide
theorem test_modred_zero : row (mk [(1, 9), (2, 0)] 0x00021301#32) = some (0xdead, 0x0206#32) := by
  decide
theorem test_modmul : row (mk [(1, 0xffffffffffffffff), (2, 0xffffffffffffffff),
    (4, 0xffffffffffffffc5)] 0x00421302#32) = some (3364, 0x0002#32) := by decide
theorem test_modmul_alias : after (step (mkAt p64 [(1, 9), (2, 7)] 0x00211102#32)) (·.x 1) =
    some 4 := by decide
theorem test_montmul : row (mk [(1, 5), (2, 7), (4, 3233)] 0x00421303#32) =
    some (921, 0x0002#32) ∧
    row (mkAt p128 [(1, 5), (2, 7), (4, 3233)] 0x00421303#32) = some (496, 0x0002#32) := by
  decide +kernel
theorem test_montmul_errors : row (mk [(1, 3233), (2, 1), (4, 3233)] 0x00421303#32) =
    some (0xdead, 0x0406#32) ∧
    row (mk [(1, 5), (2, 7), (4, 3234)] 0x00421303#32) = some (0xdead, 0x0306#32) := by decide
theorem test_modexp : row (mk [(1, 0xffffffffffffffff), (2, 0xffffffffffffffff),
    (4, 0xffffffffffffffc5)] 0x00421304#32) = some (0x44d4c86a1c084f2c, 0x0002#32) := by
  decide +kernel
theorem test_modexp_corners : row (mk [(1, 0), (2, 0), (4, 7)] 0x00421304#32) =
    some (1, 0x0002#32) ∧
    row (mk [(1, 3), (2, 5), (4, 8)] 0x00421304#32) = some (0xdead, 0x0306#32) := by decide
theorem test_mrwit : row (mk [(1, 561), (2, 2)] 0x00021305#32) = some (1, 0x000A#32) ∧
    row (mk [(1, 3001), (2, 2)] 0x00021305#32) = some (0, 0x0002#32) := by decide +kernel
theorem test_mrwit_corners : row (mk [(1, 3), (2, 3)] 0x00021305#32) = some (1, 0x000A#32) ∧
    row (mk [(1, 1), (2, 2)] 0x00021305#32) = some (0xdead, 0x0406#32) := by decide
theorem test_gcd : row (mk [(1, 12), (2, 18)] 0x00021306#32) = some (6, 0x0002#32) := by
  decide +kernel
theorem test_gcd_zero : row (mk [(1, 0), (2, 0)] 0x00021306#32) = some (0, 0x0002#32) := by
  decide +kernel
theorem test_modinv : row (mk [(1, 17), (2, 3120)] 0x00021307#32) = some (2753, 0x0002#32) := by
  decide +kernel
theorem test_modinv_none : row (mk [(1, 0), (2, 7)] 0x00021307#32) = some (0xdead, 0x0506#32) := by
  decide +kernel
theorem test_crt_negative : row (mk [(1, 0), (2, 60), (4, 53), (5, 61), (6, 20)] 0x65421308#32) =
    some (1219, 0x0002#32) := by decide
theorem test_crt_overflow : row (mk [(1, 4294967310), (2, 4294967290), (4, 4294967311),
    (5, 4294967291), (6, 2362232021)] 0x65421308#32) = some (0xdead, 0x0606#32) := by decide
theorem test_illegal : after (step (mk [] 0x00100001#32)) (fun t => (t.x 3, t.statusWord, t.cmd)) =
    some (0xdead, 0x0106#32, 0x00100001#32) := by decide

/-! ### The bus -/

/-- PARAM at W = 64, WIN = 1 and in the reference configuration (R26). -/
theorem test_param : (State.resetOf p64).busPeek 0x004#16 = 0x011F0002#32 ∧
    State.reset.busPeek 0x004#16 = 0x014F0080#32 := by decide
/-- WA(4, 0) = 0x2000 and WA(1, 0) = 0x1400 (95_test_vectors.md, program P5). -/
theorem test_window_address : windowAddr 4 0 = 0x2000#16 ∧ windowAddr 1 0 = 0x1400#16 ∧
    busTarget 0x2000#16 = .window 4 0 ∧ busTarget 0x4FFF#16 = .window 15 255 ∧
    busTarget 0x5000#16 = .reserved ∧ busTarget 0x0FFF#16 = .reserved := by decide
/-- Program P5, run (a), steps 5 to 7: STATUS 0x0011, then 0x0031, and the read gives 0. -/
theorem test_hazards :
    after (step (todo [.write 0x008#16 0x00021506#32] busy)) (fun t => (t.statusWord, t.cmd)) =
      some (0x0011#32, 0x00321404#32) ∧
    after (step (todo [.read 0x2000#16] busy)) (fun t => (t.statusWord, t.reads)) =
      some (0x0021#32, [0#32]) ∧
    after (step (todo [.write 0x1400#16 99#32] busy)) (fun t => (t.statusWord, t.x 1)) =
      some (0x0021#32, 0) := by decide
/-- Program P5, steps 12, 13: IRQ_EN with DONE = 1 asserts irq; STATUS 0x0106 becomes 0x0104. -/
theorem test_irq :
    after (step (todo [.write 0x010#16 1#32] { idle with done := true })) (·.irq) = some true ∧
    after (step (todo [.write 0x00C#16 2#32] (idle.completeErr .illegalCmd))) (·.statusWord) =
      some 0x0104#32 := by decide

/-! ### The first command after reset -/

theorem test_withFetchWord : after (step (State.reset.withFetchWord 32 0x00021301))
    (fun t => (t.statusWord, t.cmd, t.agenda)) = some (0x0206#32, 0x00021301#32, []) := by
  decide +kernel

/-! ### Witnesses: states and operands that meet a statement's hypotheses, clause by clause -/

theorem idle_wellSized : idle.WellSized := by unfold State.WellSized; decide

theorem idle_inv : idle.Inv where
  sized := idle_wellSized
  busy_clear h := by cases h
  err_iff := by decide
  flag_no_err h := by cases h
  flag_mrwit h := by cases h

/-- The operands of a command, in an IDLE well-sized state. -/
def ops (xs : List (RegIdx × Nat)) : State :=
  xs.foldl (fun s x => s.setReg x.1 (operandOfNat 2 x.2)) idle

theorem ops_wellSized : (ops [(1, 5), (2, 7), (4, 3233)]).WellSized := by
  unfold State.WellSized; decide

/-- The engine's turn, in each of its four forms. -/
theorem witness_EnginesTurn : busy.EnginesTurn [] ∧
    (todo [.engine, .reset] busy).EnginesTurn [.reset] ∧
    (todo [.waitIdle] busy).EnginesTurn [.waitIdle] ∧
    (todo [.waitIrq] busy).EnginesTurn [.waitIrq] :=
  ⟨⟨rfl, .inl ⟨rfl, rfl⟩⟩, ⟨rfl, .inr (.inl rfl)⟩, ⟨rfl, .inr (.inr (.inl ⟨_, rfl, rfl⟩))⟩,
    ⟨rfl, .inr (.inr (.inr ⟨_, rfl, rfl, rfl⟩))⟩⟩

theorem witness_ResetLeavesTheTableOfResetValues : (todo [.reset] busy).agenda = [.reset] ∧
    (todo [.write 0x010#16 2#32] busy).agenda = [.write 0x010#16 2#32] ∧
    busTarget 0x010#16 = .ctrl ∧ busTarget 0x013#16 = .ctrl ∧ (2#32)[1] = true := by decide

theorem witness_SoftResetIsHardwareReset :
    (todo [.write 0x013#16 3#32] busy).agenda = [.write 0x013#16 3#32] ∧
    busTarget 0x013#16 = .ctrl ∧ (3#32)[1] = true := by decide

theorem witness_ResetAbandonsTheCommand : (todo [.reset, .engine] busy).phase = .busy ∧
    (todo [.reset, .engine] busy).agenda = [.reset, .engine] := by decide

theorem witness_IdAndParamReadTheConfiguration : ∃ t, step busy = .next t := ⟨_, rfl⟩

theorem witness_BusyIsSetByIssueAndClearedByCompletionOrReset :
    (busTarget 0x00B#16 = .cmd ∧
      (todo [.write 0x00B#16 0#32] idle).agenda = [.write 0x00B#16 0#32]) ∧ busy.EnginesTurn [] ∧
    Event.resets (.write 0x013#16 2#32) = true ∧
    (∃ t, step (todo [.write 0x008#16 0#32] idle) = .next t ∧ idle.phase = .idle ∧
      t.phase = .busy) ∧
    (∃ t, step busy = .next t ∧ busy.phase = .busy ∧ t.phase = .idle) :=
  ⟨⟨rfl, rfl⟩, witness_EnginesTurn.1, rfl, ⟨_, rfl, rfl, rfl⟩, ⟨_, rfl, rfl, rfl⟩⟩

theorem witness_ErrAndEcodeRecordTheLastCompletion : busy.EnginesTurn [] ∧
    (todo [.write 0x008#16 0#32] idle).phase = .idle ∧
    (∃ t, step (todo [.write 0x00C#16 4#32] { idle with err := true, ecode := .range }) = .next t ∧
      Event.clearsStatusBit 2 (.write 0x00C#16 4#32) = true ∧ t.err ≠ true ∧ t.ecode ≠ .range) ∧
    (∃ t, step (todo [.reset] { idle with err := true, ecode := .range }) = .next t ∧
      Event.resets .reset = true ∧ t.err ≠ true) :=
  ⟨witness_EnginesTurn.1, rfl, ⟨_, rfl, rfl, by decide, by decide⟩, ⟨_, rfl, rfl, by decide⟩⟩

theorem witness_StatusFieldsAndWriteOneToClear :
    (todo [.write 0x00C#16 0xFFFFFFFF#32] { busy with ovr := true }).agenda =
      [.write 0x00C#16 0xFFFFFFFF#32] := by decide

theorem witness_CtrlWriteSetsEnableOrResets :
    (todo [.write 0x010#16 1#32] busy).agenda = [.write 0x010#16 1#32] ∧ (1#32)[1] = false ∧
    (todo [.write 0x010#16 3#32] busy).agenda = [.write 0x010#16 3#32] ∧ (3#32)[1] = true := by decide

theorem witness_ReservedAddressesAndBitsReadZeroAndIgnoreWrites :
    (0x0014 ≤ (0x0014#16).toNat ∧ (0x0014#16).toNat < 0x1000) ∧
    (0x0014 ≤ (0x0FFF#16).toNat ∧ (0x0FFF#16).toNat < 0x1000) ∧ 0x5000 ≤ (0x5000#16).toNat ∧
    0x5000 ≤ (0xFFFF#16).toNat ∧
    (todo [.read 0x0FFF#16] busy).agenda = [.read 0x0FFF#16] ∧
    (todo [.write 0x5000#16 1#32] busy).agenda = [.write 0x5000#16 1#32] := by decide

theorem witness_DoneIsSetByCompletionOnly :
    (∃ t, exec (.gcd 3 1 2) busy = .next t) ∧ busy.EnginesTurn [] ∧
    (∃ t, step busy = .next t ∧ busy.done = false ∧ t.done = true) ∧
    (∃ t, step (todo [.write 0x00C#16 2#32] { idle with done := true }) = .next t ∧
      t.done = false ∧ Event.clearsStatusBit 1 (.write 0x00C#16 2#32) = true) ∧
    (∃ t, step (todo [.reset] { idle with done := true }) = .next t ∧ t.done = false ∧
      Event.resets .reset = true) ∧
    (todo [.write 0x008#16 0#32] { idle with done := true }).phase = .idle :=
  ⟨⟨_, rfl⟩, witness_EnginesTurn.1, ⟨_, rfl, rfl, rfl⟩, ⟨_, rfl, rfl, rfl⟩, ⟨_, rfl, rfl, rfl⟩, rfl⟩

theorem witness_OverrunIsSetByADroppedCommandAndSticky :
    busTarget 0x00B#16 = .cmd ∧ (todo [.write 0x00B#16 0#32] busy).phase = .busy ∧
    (∃ t, step (todo [.write 0x008#16 0#32] busy) = .next t ∧ busy.ovr = false ∧ t.ovr = true) ∧
    (∃ t, step (todo [.write 0x00C#16 0x10#32] { busy with ovr := true }) = .next t ∧
      t.ovr = false ∧ Event.clearsStatusBit 4 (.write 0x00C#16 0x10#32) = true) ∧
    (∃ t, step (todo [.write 0x010#16 2#32] { busy with ovr := true }) = .next t ∧
      t.ovr = false ∧ Event.resets (.write 0x010#16 2#32) = true) :=
  ⟨rfl, rfl, ⟨_, rfl, rfl, rfl⟩, ⟨_, rfl, rfl, rfl⟩, ⟨_, rfl, rfl, rfl⟩⟩

theorem witness_WindowAccessWhileBusyIsRefused :
    busy.phase = .busy ∧ (0x1000 ≤ (0x1000#16).toNat ∧ (0x1000#16).toNat < 0x5000) ∧
    (0x1000 ≤ (0x4FFF#16).toNat ∧ (0x4FFF#16).toNat < 0x5000) ∧
    (todo [.read 0x1000#16] busy).agenda = [.read 0x1000#16] ∧
    (todo [.write 0x4FFF#16 1#32] busy).agenda = [.write 0x4FFF#16 1#32] ∧
    (∃ t, step (todo [.write 0x00C#16 0x20#32] { busy with accv := true }) = .next t ∧
      t.accv = false ∧ Event.clearsStatusBit 5 (.write 0x00C#16 0x20#32) = true) ∧
    (∃ t, step (todo [.reset] { busy with accv := true }) = .next t ∧ t.accv = false) :=
  ⟨rfl, by decide, by decide, rfl, rfl, ⟨_, rfl, rfl, rfl⟩, ⟨_, rfl, rfl⟩⟩

theorem witness_FlagIsTheMrwitVerdictOnly :
    (∃ t, (ops [(1, 9), (2, 2)]).WellSized ∧ exec (.mrwit 3 1 2) (ops [(1, 9), (2, 2)]) = .next t ∧
      t.err = false ∧ t.flag = true) ∧
    (∃ t, step (todo [.write 0x008#16 0#32] { idle with flag := true }) = .next t ∧
      (todo [.write 0x008#16 0#32] { idle with flag := true }).phase = .idle) ∧
    (∃ e, (idle.accept 0#32).EnginesTurn [] ∧ decode (idle.accept 0#32).cmd = .error e) ∧
    (∃ t, step (todo [.reset] { idle with flag := true }) = .next t ∧ Event.resets .reset = true ∧
      t.flag ≠ true) :=
  ⟨⟨_, by unfold State.WellSized; decide, rfl, rfl, rfl⟩, ⟨_, rfl, rfl⟩,
    ⟨.undefinedOpcode, ⟨rfl, .inl ⟨rfl, rfl⟩⟩, by decide⟩, ⟨_, rfl, rfl, by decide⟩⟩

theorem witness_OnlyABusyWindowReadHasASideEffect :
    (todo [.read 0x4FFF#16] busy).agenda = [.read 0x4FFF#16] := by decide

theorem witness_WindowReadReturnsTheWord :
    (todo [.read (windowAddr 15 255)] busy).agenda = [.read (windowAddr 15 255)] ∧
    (todo [.read (windowAddr 15 255)] busy).phase = .busy ∧
    (todo [.read (windowAddr 0 2)] idle).phase = .idle ∧ idle.params.width / 32 ≤ 2 ∧
    1 < idle.params.width / 32 := by decide

theorem witness_WindowWriteReplacesTheWord : idle.WellSized ∧
    (todo [.write (windowAddr 15 255) 1#32] busy).phase = .busy ∧
    (todo [.write (windowAddr 0 2) 1#32] idle).agenda = [.write (windowAddr 0 2) 1#32] ∧
    idle.phase = .idle ∧ idle.params.width / 32 ≤ 2 ∧ 1 < idle.params.width / 32 :=
  ⟨idle_wellSized, by decide, by decide, by decide, by decide, by decide⟩

theorem witness_WindowIsLittleEndian : idle.WellSized ∧ idle.phase = .idle ∧
    1 < idle.params.width / 32 ∧ 7 < idle.params.width / 8 ∧ idle.params.width / 32 ≤ 2 :=
  ⟨idle_wellSized, by decide, by decide, by decide, by decide⟩

theorem witness_SetxLoadsTheRegister : idle.WellSized ∧
    (todo (setx p64 15 (2 ^ 64 - 1)) idle).phase = .idle ∧ 2 ^ 64 - 1 < 2 ^ idle.params.width ∧
    (todo (setx p64 15 (2 ^ 64 - 1)) idle).agenda = setx idle.params 15 (2 ^ 64 - 1) ++ [] :=
  ⟨idle_wellSized, by decide, by decide, by decide⟩

theorem witness_GetxReadsTheRegister : idle.WellSized ∧
    (todo (getx p64 15) idle).agenda = getx idle.params 15 ++ [] ∧ idle.phase = .idle :=
  ⟨idle_wellSized, by decide, by decide⟩

theorem witness_CmdWriteWhileIdleIsAccepted :
    (todo [.write 0x008#16 0#32] idle).phase = .idle ∧
    (todo [.write 0x008#16 0#32] idle).agenda = [.write 0x008#16 0#32] := by decide

theorem witness_CmdWriteWhileBusyIsDropped :
    (todo [.write 0x008#16 0#32] busy).phase = .busy ∧
    (∃ t, step (todo [.write 0x008#16 0#32] busy) = .next t) := ⟨rfl, _, rfl⟩

theorem witness_AStepRunsTheDecodedCommand : busy.EnginesTurn [] ∧
    decode busy.cmd = .ok (.modexp 4 1 2 3) := ⟨witness_EnginesTurn.1, by decide⟩

theorem witness_IllegalWordsCompleteWithIllegalCmd :
    decode 0x09#32 = .error .undefinedOpcode ∧
    (todo [.write 0x008#16 0x09#32, .engine] idle).phase = .idle ∧
    (idle.accept 0x00100001#32).EnginesTurn [] ∧
    decode (idle.accept 0x00100001#32).cmd = .error .unusedFieldNonzero :=
  ⟨by decide, rfl, ⟨rfl, .inl ⟨rfl, rfl⟩⟩, by decide⟩

theorem witness_OperandsAreFrozenWhileBusy :
    ∃ t, step (todo [.write 0x1400#16 9#32] busy) = .next t ∧ busy.phase = .busy ∧ t.phase = .busy :=
  ⟨_, rfl, rfl, rfl⟩

theorem witness_OutcomeDependsOnOperandsAndWidthOnly :
    busy.regs = idle.regs ∧ busy.params.words = idle.params.words ∧
    (∃ t, exec (.gcd 3 1 2) busy = .next t) ∧ ∃ t, exec (.gcd 3 1 2) idle = .next t :=
  ⟨rfl, rfl, ⟨_, rfl⟩, _, rfl⟩

theorem witness_EveryAcceptedCommandCompletes : busy.phase = .busy := rfl

theorem witness_RunIssuesCompletesAndReturnsStatus :
    (todo (runCommand (.gcd 3 1 2)) idle).phase = .idle ∧
    (todo (runCommand (.gcd 3 1 2)) idle).agenda = runCommand (.gcd 3 1 2) ++ [] := by decide

theorem witness_DestinationMayAliasAnySource :
    (∃ t, exec ((Instr.modmul 3 1 1 2).withDest 1) (ops [(1, 9), (2, 7)]) = .next t ∧ t.err = false) ∧
    (∃ t, exec ((Instr.modmul 3 1 1 2).withDest 2) (ops [(1, 9), (2, 7)]) = .next t) ∧
    (ops [(1, 9), (2, 7)]).WellSized ∧ (ops [(1, 9), (2, 7)]).x 2 ≠ 0 :=
  ⟨⟨_, rfl, rfl⟩, ⟨_, rfl⟩, by unfold State.WellSized; decide, by decide⟩

theorem witness_ModulusErrorsComeFirst :
    (Instr.crt 3 1 2 4 5 6).modulus = some 4 ∧ (ops [(1, 1)]).x 4 = 0 ∧
    (Instr.montmul 3 1 2 4).modulus = some 4 ∧ (Instr.montmul 3 1 2 4).needsOdd = true ∧
    (ops [(1, 9), (4, 2)]).x 4 ≠ 0 ∧ (ops [(1, 9), (4, 2)]).x 4 % 2 = 0 := by decide

theorem witness_ResultsAreBelowTwoToTheWidth : 0 < 16 ∧ 497 < 2 ^ 16 ∧
    modredResult 255 16 = .ok 15 false ∧ modmulResult 255 255 254 = .ok 1 false ∧
    montmulResult 16 5 7 33 = .ok 32 false ∧ modexpResult 4 13 497 = .ok 445 false ∧
    modinvResult 3 11 = .ok 4 false ∧ gcdResult 12 18 = .ok 6 false ∧
    mrwitResult 9 2 = .ok 1 true ∧ crtResult 16 3 50 61 53 38 = .ok 2382 false := by
  decide +kernel

theorem witness_EachCommandRaisesItsOwnErrorsOnly :
    (∃ t, exec (.crt 0 0 0 0 0 0) idle = .next t ∧ t.err = true) ∧
    (∃ t, exec (.gcd 0 0 0) idle = .next t ∧ t.err = false) ∧
    (∃ t, (idle.accept 0#32).EnginesTurn [] ∧ step (idle.accept 0#32) = .next t) :=
  ⟨⟨_, rfl, rfl⟩, ⟨_, rfl, rfl⟩, ⟨_, ⟨rfl, .inl ⟨rfl, rfl⟩⟩, rfl⟩⟩

theorem witness_ErrorsArePrecise :
    (∃ t, exec (.crt 0 0 0 0 0 0) idle = .next t ∧ t.err = true) ∧
    (∃ t, (idle.accept 0#32).EnginesTurn [] ∧ step (idle.accept 0#32) = .next t ∧ t.err = true) ∧
    (∃ t, step (todo [.write 0x008#16 5#32] idle) = .next t ∧ t.cmd ≠ idle.cmd) :=
  ⟨⟨_, rfl, rfl⟩, ⟨_, ⟨rfl, .inl ⟨rfl, rfl⟩⟩, rfl, rfl⟩, ⟨_, rfl, by decide⟩⟩

theorem witness_InterruptIsEnableAndDone :
    (∃ t, step (todo [.write 0x00C#16 2#32] { idle with done := true, irqEn := true }) = .next t ∧
      Event.clearsStatusBit 1 (.write 0x00C#16 2#32) = true) ∧
    (∃ t, step (todo [.write 0x008#16 0#32] { idle with done := true, irqEn := true }) = .next t) ∧
    busy.EnginesTurn [] := ⟨⟨_, rfl, rfl⟩, ⟨_, rfl⟩, witness_EnginesTurn.1⟩

theorem witness_StaleDoneAssertsTheInterruptAtOnce :
    (todo [.write 0x010#16 1#32] { idle with done := true }).done = true ∧
    (todo [.write 0x010#16 1#32] { idle with done := true }).agenda = [.write 0x010#16 1#32] ∧
    (todo [.write 0x00C#16 2#32, .write 0x010#16 1#32] { idle with done := true }).agenda =
      [.write 0x00C#16 2#32, .write 0x010#16 1#32] ∧
    (todo [.write 0x008#16 1#32, .write 0x010#16 1#32, .engine] { idle with done := true }).phase =
      .idle := by decide

theorem witness_InterruptOnlyWhileIdle : ∃ s : State, s.Inv ∧ s.irq = true :=
  ⟨{ idle with done := true, irqEn := true },
    ⟨idle_wellSized, nofun, by decide, nofun, nofun⟩, rfl⟩

theorem witness_ModredReducesModulo : 0x00021301#32 &&& 0xFFF000FF#32 = 0x00000001#32 ∧
    (ops [(1, 5), (2, 7), (4, 3233)]).WellSized ∧ (ops [(1, 5), (2, 7), (4, 3233)]).x 3 = 0 ∧
    (ops [(1, 5), (2, 7), (4, 3233)]).x 2 ≠ 0 :=
  ⟨by decide, ops_wellSized, by decide, by decide⟩

theorem witness_ModmulMultipliesModulo : 0x00421302#32 &&& 0xFF0000FF#32 = 0x00000002#32 ∧
    (ops [(1, 5), (2, 7), (4, 3233)]).WellSized ∧ (ops [(1, 5), (2, 7), (4, 3233)]).x 3 = 0 ∧
    (ops [(1, 5), (2, 7), (4, 3233)]).x 4 ≠ 0 :=
  ⟨by decide, ops_wellSized, by decide, by decide⟩

theorem witness_MontmulIsTheMontgomeryProduct :
    0x00421303#32 &&& 0xFF0000FF#32 = 0x00000003#32 ∧ (ops [(1, 5), (2, 7), (4, 3233)]).WellSized ∧
    (ops [(4, 0)]).x 4 = 0 ∧ ((ops [(4, 2)]).x 4 ≠ 0 ∧ (ops [(4, 2)]).x 4 % 2 = 0) ∧
    ((ops [(1, 1), (4, 1)]).x 4 % 2 = 1 ∧ (ops [(1, 1), (4, 1)]).x 4 ≤ (ops [(1, 1), (4, 1)]).x 1) ∧
    ((ops [(1, 5), (2, 7), (4, 3233)]).x 4 % 2 = 1 ∧
      (ops [(1, 5), (2, 7), (4, 3233)]).x 1 < (ops [(1, 5), (2, 7), (4, 3233)]).x 4 ∧
      (ops [(1, 5), (2, 7), (4, 3233)]).x 2 < (ops [(1, 5), (2, 7), (4, 3233)]).x 4) ∧
    921 < 3233 ∧ 921 * 2 ^ 64 % 3233 = 5 * 7 % 3233 ∧ 2 ^ 64 * 1689 % 3233 = 1 % 3233 :=
  ⟨by decide, ops_wellSized, by decide, by decide, by decide, by decide, by decide, by decide,
    by decide⟩

theorem witness_ModexpIsTheExactPowerModulo :
    0x00421304#32 &&& 0xFF0000FF#32 = 0x00000004#32 ∧ (ops [(1, 5), (2, 7), (4, 3233)]).WellSized ∧
    (ops [(4, 0)]).x 4 = 0 ∧ ((ops [(4, 8)]).x 4 ≠ 0 ∧ (ops [(4, 8)]).x 4 % 2 = 0) ∧
    (ops [(4, 1)]).x 4 % 2 = 1 := ⟨by decide, ops_wellSized, by decide, by decide, by decide⟩

theorem witness_MrwitRunsOneWitnessRound :
    0x00021305#32 &&& 0xFFF000FF#32 = 0x00000005#32 ∧ (ops [(1, 5), (2, 7), (4, 3233)]).WellSized ∧
    (ops [(1, 0)]).x 1 = 0 ∧ ((ops [(1, 10)]).x 1 ≠ 0 ∧ (ops [(1, 10)]).x 1 % 2 = 0) ∧
    (ops [(1, 1)]).x 1 = 1 ∧ ((ops [(1, 3)]).x 1 % 2 = 1 ∧ 3 ≤ (ops [(1, 3)]).x 1) ∧
    3 - 1 = 1 * 2 ^ 1 ∧ 2 ^ (1 * 2 ^ 0) % 3 = 3 - 1 ∧
    ¬ (3 ^ 1 % 3 = 1 ∨ ∃ i < 1, 3 ^ (1 * 2 ^ i) % 3 = 3 - 1) :=
  ⟨by decide, ops_wellSized, by decide, by decide, by decide, by decide, by decide, by decide,
    by decide⟩

theorem witness_GcdIsTheGreatestCommonDivisor :
    0x00021306#32 &&& 0xFFF000FF#32 = 0x00000006#32 ∧ idle.WellSized ∧ idle.x 2 = 0 :=
  ⟨by decide, idle_wellSized, by decide⟩

theorem witness_ModinvIsTheReducedInverse :
    0x00021307#32 &&& 0xFFF000FF#32 = 0x00000007#32 ∧ (ops [(1, 5), (2, 7), (4, 3233)]).WellSized ∧
    (ops [(2, 0)]).x 2 = 0 ∧
    ((ops [(1, 2), (2, 4)]).x 2 ≠ 0 ∧ Nat.gcd ((ops [(1, 2), (2, 4)]).x 1) ((ops [(1, 2), (2, 4)]).x 2) ≠ 1) ∧
    (1 ≤ (ops [(2, 1)]).x 2 ∧ Nat.gcd ((ops [(2, 1)]).x 1) ((ops [(2, 1)]).x 2) = 1) :=
  ⟨by decide, ops_wellSized, by decide, by decide +kernel, by decide +kernel⟩

theorem witness_CrtRecombines : 0x65421308#32 &&& 0x000000FF#32 = 0x00000008#32 ∧
    (ops [(1, 5), (2, 7), (4, 3233)]).WellSized ∧ (ops [(4, 0)]).x 4 = 0 ∧
    ((ops [(4, 61)]).x 4 ≠ 0 ∧ (ops [(4, 61)]).x 5 ≤ (ops [(4, 61)]).x 2) ∧
    ((ops [(4, 61), (5, 53)]).x 1 < (ops [(4, 61), (5, 53)]).x 4 ∧
      (ops [(4, 61), (5, 53)]).x 2 < (ops [(4, 61), (5, 53)]).x 5) ∧
    2 ^ 64 ≤ 4294967290 + 4294967310 * 4294967291 :=
  ⟨by decide, ops_wellSized, by decide, by decide, by decide, by decide⟩

theorem witness_MontgomeryDomainIdentities :
    3233 % 2 = 1 ∧ 3 ≤ 3233 ∧ 65 < 3233 ∧ 17 < 3233 := by decide

theorem witness_ReferenceMethodsComputeModexp :
    497 % 2 = 1 ∧ 3 ≤ 497 ∧ 13 < 2 ^ 64 ∧ 1 ≤ 4 ∧ 4 ≤ 6 ∧ 13 < 2 ^ (4 * 1) ∧
    Reference.montExp 8 4 13 497 = 445 ∧ Reference.windowExp 4 1 4 13 497 = 445 := by decide +kernel

/-- 921 is the vector of section 3 (W = 64). -/
theorem witness_WordSerialReductionConforms : 3233 % 2 = 1 ∧ 5 < 3233 ∧ 7 < 3233 ∧
    3233 < 2 ^ (32 * 2) ∧ Reference.montSerial 2 5 7 3233 = 921 := by decide +kernel

/-- The toy key of 95_test_vectors.md section 6. -/
def toyKey : State := ops [(1, 3), (2, 50), (4, 61), (5, 53), (6, 38)]

theorem witness_CrtRecombinationLaw : toyKey.WellSized ∧
    (∃ t, exec (.crt 3 1 2 4 5 6) toyKey = .next t ∧ t.err = false) ∧ 1 ≤ toyKey.x 4 ∧
    1 ≤ toyKey.x 5 ∧ toyKey.x 6 * toyKey.x 5 % toyKey.x 4 = 1 % toyKey.x 4 :=
  ⟨by unfold State.WellSized; decide, ⟨_, rfl, by decide⟩, by decide, by decide, by decide⟩

/-- The registers of program P2: c = x14, dp = x11, dq = x12, p = x1, q = x2, qinv = x13. -/
def programP2 : State := ops [(14, 2790), (11, 53), (12, 49), (1, 61), (2, 53), (13, 38)]

theorem witness_CrtDecryptionAgreesWithDirectDecryption : programP2.WellSized ∧
    (4 : RegIdx) ∉ [14, 12, 1, 2, 13] ∧ (5 : RegIdx) ∉ [4, 1, 2, 13] ∧
    (programP2.x 1).Prime ∧ (programP2.x 2).Prime ∧ programP2.x 1 ≠ programP2.x 2 ∧
    programP2.x 1 % 2 = 1 ∧ programP2.x 2 % 2 = 1 ∧
    17 * 2753 % ((programP2.x 1 - 1) * (programP2.x 2 - 1)) = 1 ∧
    programP2.x 11 = 2753 % (programP2.x 1 - 1) ∧ programP2.x 12 = 2753 % (programP2.x 2 - 1) ∧
    programP2.x 13 < programP2.x 1 ∧ programP2.x 13 * programP2.x 2 % programP2.x 1 = 1 ∧
    programP2.x 14 < programP2.x 1 * programP2.x 2 ∧
    programP2.x 1 * programP2.x 2 < 2 ^ programP2.params.width :=
  ⟨by unfold State.WellSized; decide, by decide, by decide,
    (by norm_num : Nat.Prime 61), (by norm_num : Nat.Prime 53), by decide, by decide, by decide,
    by decide, by decide, by decide, by decide, by decide, by decide, by decide⟩

theorem witness_KeyExponentsAgree : (ops [(1, 17), (2, 60)]).WellSized ∧
    1 ≤ (ops [(1, 17), (2, 60)]).x 2 ∧ 1 ≤ 52 ∧
    (ops [(1, 17), (2, 60)]).x 1 * 2753 % ((ops [(1, 17), (2, 60)]).x 2 * 52) =
      1 % ((ops [(1, 17), (2, 60)]).x 2 * 52) :=
  ⟨by unfold State.WellSized; decide, by decide, by decide, by decide⟩

theorem witness_MrwitNeverCondemnsAPrime : (ops [(1, 3), (2, 2)]).WellSized ∧
    ((ops [(1, 3), (2, 2)]).x 1).Prime ∧ 3 ≤ (ops [(1, 3), (2, 2)]).x 1 ∧
    ¬ (ops [(1, 3), (2, 2)]).x 1 ∣ (ops [(1, 3), (2, 2)]).x 2 :=
  ⟨by unfold State.WellSized; decide, (by norm_num : Nat.Prime 3), by decide, by decide⟩

theorem witness_EncodeOfDecodeIsTheWord : decode 0xFFFFFF08#32 = .ok (.crt 15 15 15 15 15 15) ∧
    (fieldsOf 0xFFFFFF08#32).wf = true := by decide

theorem witness_DecodeFollowsTheOpcodeMap : decode 0x00021306#32 = .ok (.gcd 3 1 2) ∧
    (opcodeMap[5] ∈ opcodeMap ∧ opcodeMap[5].selects 0x00021306#32 = true) := by decide

theorem witness_EveryStepKeepsTheInvariant :
    (todo [.write 0x008#16 1#32] idle).Inv ∧ ∃ t, step (todo [.write 0x008#16 1#32] idle) = .next t :=
  ⟨⟨idle_wellSized, nofun, by decide, nofun, nofun⟩, _, rfl⟩

theorem witness_CompletionFrame : (∃ t, exec (.crt 3 1 2 4 5 6) toyKey = .next t) ∧
    busTarget 0x010#16 ≠ .status ∧ (∀ k, busTarget 0x010#16 ≠ .window 3 k) :=
  ⟨⟨_, rfl⟩, by decide, fun k h => by
    have : busTarget 0x010#16 = .ctrl := by decide
    rw [this] at h; cases h⟩

end Sys2Proof.Tests
end

/-!
PROOFS of the statements about the state (10_state.md): reset, ID and PARAM, STATUS.BUSY, CTRL, DONE and FLAG.
First what the control and status registers read, then what a reset, a host write and a completion do,
then the kinds of step every claim about a change of BUSY, DONE or FLAG is derived from.
-/

namespace Sys2Proof.Params

variable (p : Params)

/-- W/32 is the number of words of a register (R7, R26). -/
@[simp] theorem width_div_32 : p.width / 32 = p.words := by
  simp [Params.width]

/-- PARAM.WORDS has room for every legal number of words (R26). -/
theorem toNat_words : (BitVec.ofNat 16 p.words).toNat = p.words := by
  have := p.words_le
  rw [BitVec.toNat_ofNat, Nat.mod_eq_of_lt (by omega)]

/-- PARAM.WIN has room for every legal window width (R26). -/
theorem toNat_win : (BitVec.ofNat 4 p.win).toNat = p.win := by
  have := p.win_le
  rw [BitVec.toNat_ofNat, Nat.mod_eq_of_lt (by omega)]

/-- A verdict fits in a register of every width (R7). -/
theorem bool_toNat_lt_two_pow_width (f : Bool) : f.toNat < 2 ^ p.width := by
  have hw : p.width ≠ 0 := by
    have := p.two_le_words
    unfold Params.width
    omega
  exact (Bool.toNat_lt f).trans_le (Nat.le_self_pow hw 2)

end Sys2Proof.Params

namespace Sys2Proof.Machine

/-! ### What the control and status registers read -/

namespace State

variable (s : State)

@[simp] theorem busPeek_id : s.busPeek 0x000#16 = Config.idWord := by
  simp [State.busPeek, State.readValue]

@[simp] theorem busPeek_param : s.busPeek 0x004#16 = s.paramWord := by
  simp [State.busPeek, State.readValue]

@[simp] theorem busPeek_cmd : s.busPeek 0x008#16 = s.cmd := by
  simp [State.busPeek, State.readValue]

@[simp] theorem busPeek_status : s.busPeek 0x00C#16 = s.statusWord := by
  simp [State.busPeek, State.readValue]

@[simp] theorem busPeek_ctrl : s.busPeek 0x010#16 = s.ctrlWord := by
  simp [State.busPeek, State.readValue]

/-- STATUS.BUSY is bit 0 (R28). -/
@[simp] theorem statusWord_bit_zero : s.statusWord[0] = s.busy := by
  simp [State.statusWord, placeField]

/-- CTRL.IRQ_EN is bit 0 (R35). -/
@[simp] theorem ctrlWord_bit_zero : s.ctrlWord[0] = s.irqEn := by
  simp [State.ctrlWord, placeField]

/-- SRST and the reserved bits of CTRL read 0 (R35). -/
@[simp] theorem ctrlWord_high_bits : s.ctrlWord.extractLsb' 1 31 = 0#31 := by
  ext i hi
  simp [State.ctrlWord, placeField]

/-- PARAM.WORDS is W/32 (R26). -/
@[simp] theorem paramWord_words : s.paramWord.extractLsb' 0 16 = BitVec.ofNat 16 s.params.words := by
  ext i hi
  interval_cases i <;> simp [State.paramWord, placeField]

/-- PARAM.NREGM1 is the number of registers less one (R26). -/
@[simp] theorem paramWord_nregm1 :
    s.paramWord.extractLsb' 16 4 = BitVec.ofNat 4 (Config.nreg - 1) := by
  ext i hi
  interval_cases i <;> simp [State.paramWord, placeField]

/-- PARAM.WIN is the window width (R26). -/
@[simp] theorem paramWord_win : s.paramWord.extractLsb' 20 4 = BitVec.ofNat 4 s.params.win := by
  ext i hi
  interval_cases i <;> simp [State.paramWord, placeField]

/-- PARAM.VERSION is the command set version (R26). -/
@[simp] theorem paramWord_version :
    s.paramWord.extractLsb' 24 8 = BitVec.ofNat 8 Config.version := by
  ext i hi
  interval_cases i <;> simp [State.paramWord, placeField]

/-- PARAM depends on the configuration alone (R26). -/
theorem paramWord_of_params_eq {s t : State} (h : t.params = s.params) :
    t.paramWord = s.paramWord := by
  rw [State.paramWord, h, State.paramWord]

/-! ### Reset -/

@[simp] theorem applyReset_statusWord : s.applyReset.statusWord = 0#32 := by
  simp [State.statusWord, State.busy, ErrCode.bits, placeField]

@[simp] theorem applyReset_ctrlWord : s.applyReset.ctrlWord = 0#32 := rfl

@[simp] theorem applyReset_paramWord : s.applyReset.paramWord = s.paramWord :=
  paramWord_of_params_eq rfl

@[simp] theorem applyReset_irq : s.applyReset.irq = false := rfl

/-- The state after reset of a configuration is a fixed point of reset (R36). -/
theorem applyReset_resetOf (p : Params) : (State.resetOf p).applyReset = State.resetOf p := rfl

end State

/-- Resetting a block of the configuration of `s` gives every value of R36's table. -/
theorem resetOf_applyReset {s u : State} (h : u.params = s.params) : ResetOf s u.applyReset where
  regs := by simp [h]
  phase := rfl
  cmd := by simp
  status := by simp
  ctrl := by simp
  irq := rfl
  id := by simp
  param := by simpa using State.paramWord_of_params_eq h
  params := h

/-! ### Host writes to the control and status registers -/

@[simp] theorem busWrite_id (s : State) (v : Word) : s.busWrite 0x000#16 v = s := by
  simp [State.busWrite, State.writeTarget]

@[simp] theorem busWrite_param (s : State) (v : Word) : s.busWrite 0x004#16 v = s := by
  simp [State.busWrite, State.writeTarget]

theorem busWrite_of_cmd {a : Addr} (h : busTarget a = .cmd) (s : State) (v : Word) :
    s.busWrite a v = s.writeCmd v := by
  simp [State.busWrite, State.writeTarget, h]

theorem busWrite_of_status {a : Addr} (h : busTarget a = .status) (s : State) (v : Word) :
    s.busWrite a v = s.writeStatus v := by
  simp [State.busWrite, State.writeTarget, h]

theorem busWrite_of_ctrl {a : Addr} (h : busTarget a = .ctrl) (s : State) (v : Word) :
    s.busWrite a v = s.writeCtrl v := by
  simp [State.busWrite, State.writeTarget, h]

theorem writeCmd_idle {s : State} (h : s.phase = .idle) (v : Word) : s.writeCmd v = s.accept v := by
  simp [State.writeCmd, h]

theorem writeCmd_busy {s : State} (h : s.phase = .busy) (v : Word) : s.writeCmd v = s.markOverrun := by
  simp [State.writeCmd, h]

/-- After a CMD write the phase is BUSY, whether the write is accepted or dropped (R67, R68). -/
@[simp] theorem writeCmd_phase (s : State) (v : Word) : (s.writeCmd v).phase = .busy := by
  rcases s.phase_idle_or_busy with hp | hp
  · rw [writeCmd_idle hp, State.accept_phase]
  · rw [writeCmd_busy hp, State.markOverrun_phase, hp]

theorem writeCtrl_srst (s : State) {v : Word} (h : v[1] = true) : s.writeCtrl v = s.applyReset := by
  simp [State.writeCtrl, h]

theorem writeCtrl_enable (s : State) {v : Word} (h : v[1] = false) :
    s.writeCtrl v = { s with irqEn := v[0] } := by
  simp [State.writeCtrl, h]

/-- The step of a CMD write while IDLE accepts the word (R67). -/
theorem step_accept {s : State} {a : Addr} {v : Word} {l : List Event}
    (h : s.agenda = .write a v :: l) (ha : busTarget a = .cmd) (hp : s.phase = .idle) :
    step s = .next (s.popEvent.accept v) := by
  rw [step_write h, busWrite_of_cmd ha, writeCmd_idle (s := s.popEvent) hp]

/-- The events that reset the block (R108, R109). -/
theorem Event.resets_iff (e : Event) :
    e.resets = true ↔ e = .reset ∨ ∃ a v, e = .write a v ∧ busTarget a = .ctrl ∧ v[1] = true := by
  cases e <;> simp [Event.resets]

/-- The events that clear bit `j` of STATUS (R28). -/
theorem Event.clearsStatusBit_iff (j : Nat) (e : Event) :
    e.clearsStatusBit j = true ↔
      ∃ a v, e = .write a v ∧ busTarget a = .status ∧ v.getLsbD j = true := by
  cases e <;> simp [Event.clearsStatusBit]

/-- Both kinds of reset are one step, to the same state (R108, R109). -/
theorem step_of_resets {s : State} {e : Event} {l : List Event} (h : s.agenda = e :: l)
    (he : e.resets = true) : step s = .next s.popEvent.applyReset := by
  obtain rfl | ⟨a, v, rfl, ha, hv⟩ := (Event.resets_iff e).1 he
  · exact step_reset h
  · rw [step_write h, busWrite_of_ctrl ha, writeCtrl_srst _ hv]

/-- The state a step that resets answers (R108, R109). -/
theorem eq_applyReset_of_resets {s t : State} {e : Event} {l : List Event} (h : s.agenda = e :: l)
    (he : e.resets = true) (ht : step s = .next t) : t = s.popEvent.applyReset := by
  simpa [step_of_resets h he, eq_comm] using ht

/-- What a step that resets leaves: R36's table, and the rest of the agenda. -/
theorem step_of_resets_resetOf {s : State} {e : Event} {l : List Event} (h : s.agenda = e :: l)
    (he : e.resets = true) : ∃ t, step s = .next t ∧ ResetOf s t ∧ t.agenda = l :=
  ⟨_, step_of_resets h he, resetOf_applyReset rfl, by simp [h]⟩

/-- A STATUS write that clears bit `j` is a step with a written word that has the bit (R28). -/
theorem step_of_clearsStatusBit {s : State} {e : Event} {l : List Event} {j : Nat}
    (h : s.agenda = e :: l) (he : e.clearsStatusBit j = true) :
    ∃ v : Word, v.getLsbD j = true ∧ step s = .next (s.popEvent.writeStatus v) := by
  obtain ⟨a, v, rfl, ha, hv⟩ := (Event.clearsStatusBit_iff j e).1 he
  exact ⟨v, hv, by rw [step_write h, busWrite_of_status ha]⟩

/-! ### The configuration never changes -/

theorem EngineEffect.params_eq {s t : State} (h : EngineEffect s t) : t.params = s.params := by
  cases h <;> simp

theorem WriteEffect.params_eq {s t : State} {a : Addr} {v : Word} (h : WriteEffect s a v t) :
    t.params = s.params := by
  cases h <;> simp

/-- No step writes the configuration (R7, R9, R26). -/
theorem step_params {s t : State} (h : step s = .next t) : t.params = s.params := by
  cases step_inv h with
  | turn _ e => exact e.params_eq
  | engine _ _ e => exact e.params_eq
  | read a _ _ => exact (busRead_frame s.popEvent a).1
  | write _ _ _ _ e => exact e.params_eq
  | reset => rfl
  | irq => rfl

/-! ### The kinds of step -/

/-- After its turn the engine is IDLE, whatever the turn was (R66, R70). -/
theorem EngineEffect.phase_idle {s t : State} (h : EngineEffect s t) : t.phase = .idle := by
  cases h with
  | idle hp => exact hp
  | ok | err | illegal => rfl

/-- A turn the engine takes while BUSY is a completion, and every completion sets DONE (R30, R70). -/
theorem EngineEffect.done_of_busy {s t : State} (h : EngineEffect s t) (hp : s.phase = .busy) :
    t.done = true := by
  cases h with
  | idle hi => rw [hp] at hi; cases hi
  | ok | err | illegal => rfl

/-- What a step does to the phase, CMD, DONE, ERR, ECODE and FLAG, by its cause: only a completion, an
accepted CMD write, a reset and a STATUS write touch any of them (R27 to R32). -/
inductive StepKind (s t : State) : Prop where
  /-- The engine completes the command in CMD (R70). -/
  | completion (rest : List Event) : s.EnginesTurn rest →
      EngineEffect { s with agenda := rest } t → StepKind s t
  /-- A CMD write is accepted while IDLE (R67). -/
  | issue (a : Addr) (w : Word) (l : List Event) : s.agenda = .write a w :: l →
      busTarget a = .cmd → s.phase = .idle → t = s.popEvent.accept w → StepKind s t
  /-- The reset input or a soft reset (R108, R109). -/
  | reset (e : Event) (l : List Event) : s.agenda = e :: l → e.resets = true →
      t = s.popEvent.applyReset → StepKind s t
  /-- A STATUS write (R28). -/
  | statusWrite (a : Addr) (v : Word) (l : List Event) : s.agenda = .write a v :: l →
      busTarget a = .status → t = s.popEvent.writeStatus v → StepKind s t
  /-- Any other step leaves all of them. -/
  | quiet : t.phase = s.phase → t.cmd = s.cmd → t.done = s.done → t.err = s.err →
      t.ecode = s.ecode → t.flag = s.flag → StepKind s t

/-- Every bus write on the agenda is of one of the kinds. -/
theorem StepKind.of_writeEffect {s t : State} {a : Addr} {v : Word} {l : List Event}
    (h : s.agenda = .write a v :: l) (e : WriteEffect s.popEvent a v t) : StepKind s t := by
  cases e with
  | accepted ha hp => exact .issue a v l h ha hp rfl
  | status ha => exact .statusWrite a v l h ha rfl
  | softReset ha hv => exact .reset _ l h ((Event.resets_iff _).2 (.inr ⟨a, v, rfl, ha, hv⟩)) rfl
  | ignored | dropped | irqEn | refused | window => exact .quiet rfl rfl rfl rfl rfl rfl

/-- A turn of the engine while IDLE changes nothing (R107); while BUSY it is a completion. -/
theorem StepKind.of_engineEffect {s t : State} {rest : List Event}
    (hturn : s.phase = .busy → s.EnginesTurn rest)
    (e : EngineEffect { s with agenda := rest } t) : StepKind s t := by
  rcases s.phase_idle_or_busy with hp | hp
  · cases e with
    | idle => exact .quiet rfl rfl rfl rfl rfl rfl
    | ok _ _ _ hb | err _ _ hb | illegal _ hb => rw [hp] at hb; cases hb
  · exact .completion rest (hturn hp) e

/-- Every step is of one of the kinds. -/
theorem step_kind {s t : State} (h : step s = .next t) : StepKind s t := by
  cases step_inv h with
  | turn ha e =>
    refine .of_engineEffect (rest := s.agenda) (fun hp => ⟨hp, ?_⟩) e
    obtain ha | ⟨l, ha, -⟩ | ⟨l, ha, hi⟩ := ha
    · exact .inl ⟨ha, ha⟩
    · exact .inr (.inr (.inl ⟨l, ha, rfl⟩))
    · exact .inr (.inr (.inr ⟨l, ha, hi, rfl⟩))
  | engine l ha e =>
    rw [State.popEvent_eq ha] at e
    exact .of_engineEffect (fun hp => ⟨hp, .inr (.inl ha)⟩) e
  | read a l _ =>
    obtain ⟨-, -, hphase, hcmd, hdone, herr, hflag, -, hecode, -⟩ := busRead_frame s.popEvent a
    exact .quiet hphase hcmd hdone herr hecode hflag
  | write a v l ha e => exact .of_writeEffect ha e
  | reset l ha => exact .reset .reset l ha rfl rfl
  | irq => exact .quiet rfl rfl rfl rfl rfl rfl

/-! ### The flag of a command's result -/

/-- The result of MRWIT is its verdict, in the register as in the flag (R87). -/
theorem mrwitResult_value {x a v : Nat} {f : Bool} (h : mrwitResult x a = .ok v f) :
    v = f.toNat := by
  unfold mrwitResult at h
  split_ifs at h <;> cases h <;> rfl

/-- A check passed: the result is a success only when its condition does not hold (R73). -/
@[simp] theorem ite_err_else_eq_ok {c : Prop} [Decidable c] {e : ErrCode} {r : Result} {v : Nat}
    {f : Bool} : (if c then .err e else r) = Result.ok v f ↔ ¬ c ∧ r = .ok v f := by
  by_cases hc : c <;> simp [hc]

/-- The same for a check written the other way round. -/
@[simp] theorem ite_else_err_eq_ok {c : Prop} [Decidable c] {e : ErrCode} {r : Result} {v : Nat}
    {f : Bool} : (if c then r else .err e) = Result.ok v f ↔ c ∧ r = .ok v f := by
  by_cases hc : c <;> simp [hc]

/-- Only MRWIT computes a flag (R32). -/
theorem resultOf_flag {i : Instr} {s : State} {v : Nat} (h : resultOf i s = .ok v true) :
    ∃ rd x a, i = .mrwit rd x a := by
  cases i with
  | mrwit rd x a => exact ⟨rd, x, a, rfl⟩
  | modred => simp [resultOf, modredResult] at h
  | modmul => simp [resultOf, modmulResult] at h
  | montmul => simp [resultOf, montmulResult] at h
  | modexp => simp [resultOf, modexpResult] at h
  | gcd => simp [resultOf, gcdResult] at h
  | modinv => simp [resultOf, modinvResult] at h
  | crt => simp [resultOf, crtResult] at h

/-- After a successful MRWIT, rd holds FLAG (R32, R87). -/
theorem exec_mrwit_x_eq_flag {s t : State} {rd x a : RegIdx} (h : exec (.mrwit rd x a) s = .next t)
    (herr : t.err = false) : t.x rd = t.flag.toNat := by
  obtain ⟨v, f, hr, rfl⟩ | ⟨c, -, rfl⟩ := exec_cases h
  · obtain rfl : v = f.toNat := mrwitResult_value hr
    exact s.completeOk_x_same rd f (s.params.bool_toNat_lt_two_pow_width f)
  · cases herr

/-- FLAG after a command says that it was an MRWIT and that it succeeded (R32). -/
theorem exec_flag {s t : State} {i : Instr} (h : exec i s = .next t) (hf : t.flag = true) :
    (∃ rd x a, i = .mrwit rd x a) ∧ t.err = false := by
  obtain ⟨v, f, hr, rfl⟩ | ⟨c, -, rfl⟩ := exec_cases h
  · obtain rfl : f = true := hf
    exact ⟨resultOf_flag hr, rfl⟩
  · cases hf

/-! ### The statements -/

/-- Settles O1: both kinds of reset are `applyReset`, which meets R36's table, and the state after reset
of a configuration is a fixed point of it. -/
theorem resetLeavesTheTableOfResetValues : Obligations.ResetLeavesTheTableOfResetValues := by
  refine ⟨fun s l h => step_of_resets_resetOf h rfl, fun s a v l h ha hv => ?_, fun p => ⟨?_, ?_⟩⟩
  · exact step_of_resets_resetOf h ((Event.resets_iff _).2 (.inr ⟨a, v, rfl, ha, hv⟩))
  · exact resetOf_applyReset (u := State.resetOf p) rfl
  · intro r
    rw [← State.applyReset_resetOf, State.x, State.applyReset_reg, operandValue_replicate_zero]

/-- Settles O4: the fields of PARAM are read off its word, and ID and PARAM follow the configuration,
which no step writes. -/
theorem idAndParamReadTheConfiguration : Obligations.IdAndParamReadTheConfiguration := by
  intro s
  simp only [State.busPeek_id, State.busPeek_param, Params.width_div_32, State.paramWord_words,
    State.paramWord_nregm1, State.paramWord_win, State.paramWord_version]
  exact ⟨rfl, s.params.toNat_words, s.params.two_le_words, s.params.words_le, rfl,
    s.params.toNat_win, s.params.one_le_win, s.params.win_le, rfl, trivial, s.applyReset_paramWord,
    fun v => ⟨busWrite_id s v, busWrite_param s v⟩,
    fun t h => ⟨step_params h, trivial, State.paramWord_of_params_eq (step_params h)⟩⟩

/-- Settles O5, by the kinds of step: a completion and a reset end in IDLE, an accepted CMD write in BUSY,
and no other step changes the phase. -/
theorem busyIsSetByIssueAndClearedByCompletionOrReset :
    Obligations.BusyIsSetByIssueAndClearedByCompletionOrReset := by
  refine ⟨fun s => by simp, ?_, ?_, ?_, ?_, ?_⟩
  · intro s a w l h ha
    exact ⟨_, step_write h, by simp [busWrite_of_cmd ha]⟩
  · intro s rest h
    obtain ⟨t, ht, e⟩ := step_enginesTurn_cases h
    exact ⟨t, ht, e.phase_idle⟩
  · intro s e l h he
    exact ⟨_, step_of_resets h he, rfl⟩
  · intro s t h hs ht
    cases step_kind h with
    | issue a w l ha hcmd => exact ⟨a, w, l, ha, hcmd⟩
    | completion _ _ e => simp [e.phase_idle] at ht
    | reset _ _ _ _ e | statusWrite _ _ _ _ _ e => simp [e, hs] at ht
    | quiet hphase => simp [hphase, hs] at ht
  · intro s t h hs ht
    cases step_kind h with
    | completion rest hturn => exact .inl ⟨rest, hturn⟩
    | reset e l ha he => exact .inr ⟨e, l, ha, he⟩
    | issue _ _ _ _ _ hp => simp [hs] at hp
    | statusWrite _ _ _ _ _ e => simp [e, hs] at ht
    | quiet hphase => simp [hphase, hs] at ht

/-- Settles O8: a CTRL write is `writeCtrl`, in either phase. -/
theorem ctrlWriteSetsEnableOrResets : Obligations.CtrlWriteSetsEnableOrResets := by
  refine ⟨fun s v l h hv => ?_, fun s v l h hv => ?_, fun s => by simp, fun p => ?_⟩
  · rw [step_write h, busWrite_of_ctrl busTarget_ctrl, writeCtrl_enable _ hv, State.popEvent_eq h]
  · rw [step_write h, busWrite_of_ctrl busTarget_ctrl, writeCtrl_srst _ hv]
    exact ⟨_, rfl, resetOf_applyReset rfl, rfl⟩
  · rw [← State.applyReset_resetOf, State.busPeek_ctrl, State.applyReset_ctrlWord]

/-- Settles O10, by the kinds of step: a completion sets DONE, an accepted CMD write, a STATUS write with
bit 1 and a reset clear it, and no other step changes it. -/
theorem doneIsSetByCompletionOnly : Obligations.DoneIsSetByCompletionOnly := by
  refine ⟨?_, ?_, ?_, ?_, ?_, ?_⟩
  · intro i s t h
    obtain ⟨v, f, -, rfl⟩ | ⟨c, -, rfl⟩ := exec_cases h <;> rfl
  · intro s rest h
    obtain ⟨t, ht, e⟩ := step_enginesTurn_cases h
    exact ⟨t, ht, e.done_of_busy h.1⟩
  · intro s t h hs ht
    cases step_kind h with
    | completion _ hturn e => exact ⟨hturn.1, e.phase_idle⟩
    | issue _ _ _ _ _ _ e | reset _ _ _ _ e | statusWrite _ _ _ _ _ e => simp [e, hs] at ht
    | quiet _ _ hdone => simp [hdone, hs] at ht
  · intro s t h hs ht
    cases step_kind h with
    | completion _ hturn e => simp [e.done_of_busy hturn.1] at ht
    | issue _ _ _ _ _ hp e => exact .inl ⟨hp, by rw [e, State.accept_phase]⟩
    | reset e l ha he => exact .inr ⟨e, l, ha, .inr he⟩
    | statusWrite a v l ha hst e =>
      have hv : v.getLsbD 1 = true := by simpa [e, hs] using ht
      exact .inr ⟨_, l, ha, .inl ((Event.clearsStatusBit_iff 1 _).2 ⟨a, v, rfl, hst, hv⟩)⟩
    | quiet _ _ hdone => simp [hdone, hs] at ht
  · rintro s t h ⟨e, l, ha, he | he⟩
    · obtain ⟨v, hv, hstep⟩ := step_of_clearsStatusBit ha he
      obtain rfl : s.popEvent.writeStatus v = t := by simpa [hstep] using h
      have hv1 : v[1] = true := hv
      simp [hv1]
    · rw [eq_applyReset_of_resets ha he h, State.applyReset_done]
  · intro s v l h hp
    exact ⟨_, step_accept h busTarget_cmd hp, rfl⟩

/-- Settles O13: only MRWIT's result carries a flag, equal to its value, and by the kinds of step only a
completion, an accepted CMD write and a reset change FLAG. -/
theorem flagIsTheMrwitVerdictOnly : Obligations.FlagIsTheMrwitVerdictOnly := by
  refine ⟨?_, ?_, ?_, ?_, ?_, ?_⟩
  · intro i s t _ h
    constructor
    · intro hf
      obtain ⟨⟨rd, x, a, rfl⟩, herr⟩ := exec_flag h hf
      exact ⟨⟨rd, x, a, rfl⟩, herr, (exec_mrwit_x_eq_flag h herr).trans (by rw [hf, Bool.toNat_true])⟩
    · rintro ⟨⟨rd, x, a, rfl⟩, herr, hx⟩
      have hflag : t.flag.toNat = 1 := (exec_mrwit_x_eq_flag h herr).symm.trans hx
      simpa using hflag
  · intro s rd x a t _ h herr
    exact exec_mrwit_x_eq_flag h herr
  · intro s t v l ha hp h
    obtain rfl : s.popEvent.accept v = t := by simpa [step_accept ha busTarget_cmd hp] using h
    rfl
  · intro s t rest e hturn hd h
    rw [step_enginesTurn hturn, engineTurn_illegal (s := { s with agenda := rest }) hturn.1 hd] at h
    cases h
    rfl
  · rintro s t h ⟨e, l, ha, he⟩
    rw [eq_applyReset_of_resets ha he h, State.applyReset_flag]
  · intro s t h hne
    cases step_kind h with
    | completion _ hturn e => exact .inl ⟨hturn.1, e.phase_idle⟩
    | issue _ _ _ _ _ hp ht =>
      exact .inr (.inl ⟨hp, by rw [ht, State.accept_phase], by rw [ht, State.accept_flag]⟩)
    | reset e l ha he ht => exact .inr (.inr ⟨e, l, ha, he, by rw [ht, State.applyReset_flag]⟩)
    | statusWrite _ _ _ _ _ ht => simp [ht] at hne
    | quiet _ _ _ _ _ hflag => exact absurd hflag hne

end Sys2Proof.Machine

/-!
PROOFS of the statements about the bus and the operand windows (20_memory.md): the reserved addresses and
bits, the ignored low address bits, and what a window word shows and takes.
First the address map, then what a bus access does by what its address names, then the bits of the
control and status registers and of an operand word.
-/

namespace Sys2Proof.Machine

/-! ### The address map -/

/-- An address names what its word names (R44). -/
theorem busTarget_congr {a b : Addr} (h : alignedAddr a = alignedAddr b) :
    busTarget a = busTarget b := by
  simp only [busTarget, h]

/-- Clearing bits [1:0] of an address leaves its word (R44). -/
@[simp] theorem alignedAddr_clear_low_bits (a : Addr) :
    alignedAddr (a &&& 0xFFFC#16) = alignedAddr a := by
  have hbits : (a &&& 0xFFFC#16) >>> 2 = a >>> 2 := by
    ext i hi
    interval_cases i <;> simp
  have hdiv : (a &&& 0xFFFC#16).toNat / 4 = a.toNat / 4 := by
    simpa [Nat.shiftRight_eq_div_pow] using congrArg BitVec.toNat hbits
  rw [alignedAddr, hdiv, alignedAddr]

@[simp] theorem busTarget_clear_low_bits (a : Addr) : busTarget (a &&& 0xFFFC#16) = busTarget a :=
  busTarget_congr (alignedAddr_clear_low_bits a)

/-- Byte `i` of the window of `r` is in word `i / 4` (R40). -/
theorem busTarget_window_byte (r : RegIdx) {i : Nat} (hi : i < 1024) :
    busTarget (BitVec.ofNat 16 (0x1000 + 0x400 * r.val + i)) = .window r (i / 4) := by
  have hk : i / 4 < 256 := by omega
  have hr := r.isLt
  have halign : alignedAddr (BitVec.ofNat 16 (0x1000 + 0x400 * r.val + i)) =
      alignedAddr (windowAddr r (i / 4)) := by
    rw [alignedAddr, alignedAddr, windowAddr_toNat r hk, BitVec.toNat_ofNat,
      Nat.mod_eq_of_lt (by omega)]
    omega
  rw [busTarget_congr halign, busTarget_windowAddr r hk]

/-! ### Bus accesses by what the address names -/

section
variable {a b : Addr} {r : RegIdx} {k : Nat}

theorem busRead_congr (h : busTarget a = busTarget b) (s : State) : s.busRead a = s.busRead b := by
  simp only [State.busRead, State.busPeek, h]

theorem busWrite_congr (h : busTarget a = busTarget b) (s : State) (v : Word) :
    s.busWrite a v = s.busWrite b v := by
  simp only [State.busWrite, h]

theorem busPeek_of_reserved (h : busTarget a = .reserved) (s : State) : s.busPeek a = 0#32 := by
  simp [State.busPeek, State.readValue, h]

theorem busRead_of_reserved (h : busTarget a = .reserved) (s : State) :
    s.busRead a = { s with reads := 0#32 :: s.reads } := by
  simp [State.busRead, State.readEffect, busPeek_of_reserved h, h]

theorem busWrite_of_reserved (h : busTarget a = .reserved) (s : State) (v : Word) :
    s.busWrite a v = s := by
  simp [State.busWrite, State.writeTarget, h]

/-- While IDLE a read has no side effect, whatever it reads (R46). -/
theorem busRead_idle {s : State} (hp : s.phase = .idle) (a : Addr) :
    s.busRead a = { s with reads := s.busPeek a :: s.reads } := by
  obtain ⟨hb, -, -⟩ | h := busRead_cases s a
  · rw [hp] at hb; cases hb
  · exact h

theorem busRead_window_busy {s : State} (h : busTarget a = .window r k) (hp : s.phase = .busy) :
    s.busRead a = { s with accv := true, reads := 0#32 :: s.reads } := by
  simp [State.busRead, State.readEffect, State.busPeek, State.readValue, h, State.busy, hp,
    State.markAccessViolation]

/-- While IDLE a window shows the words of its register, and 0 past them (R40, R41). -/
theorem busPeek_window_idle {s : State} (h : busTarget a = .window r k) (hp : s.phase = .idle) :
    s.busPeek a = if k < s.params.words then operandWord (s.reg r) k else 0#32 := by
  simp [State.busPeek, State.readValue, h, State.busy, hp]

theorem busWrite_window_busy {s : State} (h : busTarget a = .window r k) (hp : s.phase = .busy)
    (v : Word) : s.busWrite a v = { s with accv := true } := by
  simp [State.busWrite, State.writeTarget, State.writeWindow, h, State.busy, hp,
    State.markAccessViolation]

/-- While IDLE a window write replaces a word of its register, and is ignored past them (R42). -/
theorem busWrite_window_idle {s : State} (h : busTarget a = .window r k) (hp : s.phase = .idle)
    (v : Word) : s.busWrite a v =
      if k < s.params.words then s.setReg r (operandSetWord (s.reg r) k v) else s := by
  simp [State.busWrite, State.writeTarget, State.writeWindow, h, State.busy, hp]

end

/-! ### The step of a bus access, on the state with the rest of the agenda -/

theorem step_read_eq {s : State} {a : Addr} {l : List Event} (h : s.agenda = .read a :: l) :
    step s = .next (State.busRead { s with agenda := l } a) := by
  rw [step_read h, State.popEvent_eq h]

theorem step_write_eq {s : State} {a : Addr} {v : Word} {l : List Event}
    (h : s.agenda = .write a v :: l) : step s = .next (State.busWrite { s with agenda := l } a v) := by
  rw [step_write h, State.popEvent_eq h]

/-- The step of a read while IDLE adds the word read and nothing else (R46). -/
theorem step_read_idle {s : State} {a : Addr} {l : List Event} (h : s.agenda = .read a :: l)
    (hp : s.phase = .idle) :
    step s = .next { s with agenda := l, reads := s.busPeek a :: s.reads } := by
  rw [step_read_eq h, busRead_idle (s := { s with agenda := l }) hp]
  rfl

/-- The step of a window read while BUSY reads 0 and sets ACCV (R41). -/
theorem step_read_window_busy {s : State} {a : Addr} {r : RegIdx} {k : Nat} {l : List Event}
    (h : s.agenda = .read a :: l) (ha : busTarget a = .window r k) (hp : s.phase = .busy) :
    step s = .next { s with accv := true, agenda := l, reads := 0#32 :: s.reads } := by
  rw [step_read_eq h, busRead_window_busy (s := { s with agenda := l }) ha hp]

/-- The step of a window write while BUSY sets ACCV and nothing else (R42). -/
theorem step_write_window_busy {s : State} {a : Addr} {v : Word} {r : RegIdx} {k : Nat}
    {l : List Event} (h : s.agenda = .write a v :: l) (ha : busTarget a = .window r k)
    (hp : s.phase = .busy) : step s = .next { s with accv := true, agenda := l } := by
  rw [step_write_eq h, busWrite_window_busy (s := { s with agenda := l }) ha hp]

/-- The step of a window write while IDLE replaces a word of the register, if it has that word (R42). -/
theorem step_write_window_idle {s : State} {a : Addr} {v : Word} {r : RegIdx} {k : Nat}
    {l : List Event} (h : s.agenda = .write a v :: l) (ha : busTarget a = .window r k)
    (hp : s.phase = .idle) :
    step s = .next (if k < s.params.words then
      State.setReg { s with agenda := l } r (operandSetWord (s.reg r) k v)
    else { s with agenda := l }) := by
  rw [step_write_eq h, busWrite_window_idle (s := { s with agenda := l }) ha hp]
  rfl

/-! ### Reserved bits -/

/-- The reserved bits of STATUS read 0 (R28, R45). -/
theorem State.statusWord_reserved_bits (s : State) : s.statusWord &&& 0xFFFFF0C0#32 = 0#32 := by
  ext i hi
  interval_cases i <;> simp [State.statusWord, placeField]

/-- The reserved bits of CTRL, and SRST, read 0 (R35, R45). -/
theorem State.ctrlWord_reserved_bits (s : State) : s.ctrlWord &&& 0xFFFFFFFE#32 = 0#32 := by
  ext i hi
  interval_cases i <;> simp [State.ctrlWord, placeField]

/-- A STATUS write acts by its bits 1, 2, 4 and 5 alone (R28). -/
@[simp] theorem writeStatus_mask (s : State) (v : Word) :
    s.writeStatus (v &&& 0x00000036#32) = s.writeStatus v := by
  simp [State.writeStatus]

/-- A CTRL write acts by its bits 0 and 1 alone (R35). -/
@[simp] theorem writeCtrl_mask (s : State) (v : Word) :
    s.writeCtrl (v &&& 0x00000003#32) = s.writeCtrl v := by
  simp [State.writeCtrl]

/-! ### The bits of an operand word -/

/-- A field of word `k` of a register is those bits of the register's number (R40). -/
theorem operandWord_extract_toNat (x : Operand) (k : Nat) {lo len : Nat} (h : lo + len ≤ 32) :
    ((operandWord x k).extractLsb' lo len).toNat =
      operandValue x / 2 ^ (32 * k + lo) % 2 ^ len := by
  apply Nat.eq_of_testBit_eq
  intro j
  rw [BitVec.extractLsb'_toNat, operandWord_toNat]
  simp only [Nat.testBit_mod_two_pow, Nat.testBit_shiftRight, Nat.testBit_div_two_pow]
  by_cases hj : j < len
  · rw [decide_eq_true (show lo + j < 32 by omega), Bool.true_and]
    congr 2
    omega
  · rw [decide_eq_false hj, Bool.false_and, Bool.false_and]

/-! ### The statements -/

/-- Settles O9: the reserved addresses are those the map names reserved, and the masks are the bits that
STATUS and CTRL hold and that their writes act by. -/
theorem reservedAddressesAndBitsReadZeroAndIgnoreWrites :
    Obligations.ReservedAddressesAndBitsReadZeroAndIgnoreWrites := by
  refine ⟨fun s a l ha => ?_, fun s => ?_, fun s v => ?_⟩
  · have ht : busTarget a = .reserved := (busTarget_reserved_iff a).2 ha
    constructor
    · intro h
      rw [step_read_eq h, busRead_of_reserved ht]
    · intro v h
      rw [step_write_eq h, busWrite_of_reserved ht]
  · rw [State.busPeek_status, State.busPeek_ctrl]
    exact ⟨s.statusWord_reserved_bits, s.ctrlWord_reserved_bits⟩
  · simp only [busWrite_of_status busTarget_status, busWrite_of_ctrl busTarget_ctrl,
      writeStatus_mask, writeCtrl_mask, and_self]

/-- Settles O14: an access acts by what its address names, which the low bits do not change. -/
theorem addressLowBitsAreIgnored : Obligations.AddressLowBitsAreIgnored := by
  intro s a v l
  have ht : busTarget a = busTarget (a &&& 0xFFFC#16) := (busTarget_clear_low_bits a).symm
  constructor
  · rw [step_read rfl, step_read rfl]
    exact congrArg _ (busRead_congr ht _)
  · rw [step_write rfl, step_write rfl]
    exact congrArg _ (busWrite_congr ht _ v)

/-- Settles O16: the read of a window address, in its three cases. -/
theorem windowReadReturnsTheWord : Obligations.WindowReadReturnsTheWord := by
  intro s r k l hk h
  have ht : busTarget (windowAddr r k) = .window r k := busTarget_windowAddr r (by omega)
  rw [Params.width_div_32]
  refine ⟨step_read_window_busy h ht, fun hp hw => ?_, fun hp hw =>
    ⟨operandWord (s.reg r) k, operandWord_toNat (s.reg r) k, ?_⟩⟩
  · rw [step_read_idle h hp, busPeek_window_idle ht hp, if_neg (Nat.not_lt.2 hw)]
  · rw [step_read_idle h hp, busPeek_window_idle ht hp, if_pos hw]

/-- Settles O17: the write of a window address, in its three cases; a word replaced is its 32 bits of the
register and no other bit. -/
theorem windowWriteReplacesTheWord : Obligations.WindowWriteReplacesTheWord := by
  intro s r k v l hs hk h
  have ht : busTarget (windowAddr r k) = .window r k := busTarget_windowAddr r (by omega)
  rw [Params.width_div_32]
  refine ⟨step_write_window_busy h ht, fun hp hw => ?_, fun hp hw => ?_⟩
  · rw [step_write_window_idle h ht hp, if_neg (Nat.not_lt.2 hw)]
  · rw [step_write_window_idle h ht hp, if_pos hw]
    refine ⟨_, rfl, fun i => ?_, fun r' hr => State.setReg_reg_ne _ hr _, ?_, rfl⟩
    · rw [State.x, State.setReg_reg_same]
      exact operandSetWord_testBit (s.reg r) k v (by rwa [hs r]) i
    · rw [State.setReg_reg_same, operandSetWord_length]
      exact hs r

/-- Settles O18: while IDLE a window word is the register's word, whose bytes are bytes of the register's
number, and past the register's words it reads 0 and takes nothing. -/
theorem windowIsLittleEndian : Obligations.WindowIsLittleEndian := by
  intro s r _ hp
  have hwords := s.params.words_le
  have hword (k : Nat) (hk : k < 256) : busTarget
      (BitVec.ofNat 16 (0x1000 + 0x400 * r.val + 4 * k)) = .window r k := busTarget_windowAddr r hk
  rw [Params.width_div_32]
  refine ⟨fun k hk => ?_, fun i hi => ?_, fun k v hw hk => ?_⟩
  · rw [busPeek_window_idle (hword k (by omega)) hp, if_pos hk]
    exact operandWord_toNat (s.reg r) k
  · have hi4 : i < 4 * s.params.words := by rw [Params.width] at hi; omega
    rw [busPeek_window_idle (busTarget_window_byte r (by omega)) hp, if_pos (by omega),
      operandWord_extract_toNat _ _ (by omega), show 32 * (i / 4) + 8 * (i % 4) = 8 * i by omega]
    rfl
  · have ht := hword k (by omega)
    rw [busPeek_window_idle ht hp, busWrite_window_idle ht hp, if_neg (Nat.not_lt.2 hw),
      if_neg (Nat.not_lt.2 hw)]
    exact ⟨rfl, rfl⟩

end Sys2Proof.Machine

/-!
PROOFS of the statements about the encoding (30_encoding.md): the opcode map and the illegal words.
First which fields each kind of row of the map selects, then that a word has a command exactly when it
selects a row, and the illegal words as those that select none.
-/

namespace Sys2Proof

/-! ### What a row of the opcode map selects -/

/-- Two words are equal when their fields are: every bit belongs to a field (R56). -/
theorem fieldsOf_inj {v w : Word} : fieldsOf v = fieldsOf w ↔ v = w :=
  ⟨fun h => by rw [← toWord_fieldsOf v, h, toWord_fieldsOf], congrArg fieldsOf⟩

/-- An opcode alone in a word leaves every register field 0 (R56). -/
theorem fieldsOf_placeField_op (op : BitVec 8) :
    fieldsOf (placeField op 0) = ⟨op, 0, 0, 0, 0, 0, 0⟩ := by
  have h : placeField op 0 = (⟨op, 0, 0, 0, 0, 0, 0⟩ : Fields).toWord := by
    simp [Fields.toWord, placeField, regBits]
  rw [h, fieldsOf_toWord]

/-- A register field whose bits are 0 is 0 (R56). -/
theorem toFin_zero_regIdx : (0#4).toFin = (0 : RegIdx) := rfl

section
variable {w m : Word} {lo len : Nat}

theorem extract_and_of_kept (h : m.extractLsb' lo len = BitVec.allOnes len) :
    (w &&& m).extractLsb' lo len = w.extractLsb' lo len := by
  rw [BitVec.extractLsb'_and, h, BitVec.and_allOnes]

theorem extract_and_of_cleared (h : m.extractLsb' lo len = 0#len) :
    (w &&& m).extractLsb' lo len = 0#len := by
  rw [BitVec.extractLsb'_and, h, BitVec.and_zero]

end

theorem OpRow.selects_iff (row : OpRow) (w : Word) :
    row.selects w = true ↔ w &&& row.maskBits = row.matchBits :=
  beq_iff_eq

section
variable (w : Word) (op : BitVec 8)

/-- What a row whose unused fields are rs3, rs4 and rs5 selects (R58). -/
theorem and_mask_rs345_iff : w &&& 0xFFF000FF#32 = placeField op 0 ↔
    (fieldsOf w).op = op ∧ (fieldsOf w).rs3 = 0 ∧ (fieldsOf w).rs4 = 0 ∧ (fieldsOf w).rs5 = 0 := by
  rw [← fieldsOf_inj, fieldsOf_placeField_op]
  simp (disch := decide) only [fieldsOf, extract_and_of_kept, extract_and_of_cleared,
    toFin_zero_regIdx, Fields.mk.injEq, true_and]

/-- What a row whose unused fields are rs4 and rs5 selects (R58). -/
theorem and_mask_rs45_iff : w &&& 0xFF0000FF#32 = placeField op 0 ↔
    (fieldsOf w).op = op ∧ (fieldsOf w).rs4 = 0 ∧ (fieldsOf w).rs5 = 0 := by
  rw [← fieldsOf_inj, fieldsOf_placeField_op]
  simp (disch := decide) only [fieldsOf, extract_and_of_kept, extract_and_of_cleared,
    toFin_zero_regIdx, Fields.mk.injEq, true_and]

/-- What a row without unused fields selects (R58). -/
theorem and_mask_op_iff : w &&& 0x000000FF#32 = placeField op 0 ↔ (fieldsOf w).op = op := by
  rw [← fieldsOf_inj, fieldsOf_placeField_op]
  simp (disch := decide) only [fieldsOf, extract_and_of_kept, extract_and_of_cleared,
    toFin_zero_regIdx, Fields.mk.injEq, and_true]

end

/-- The opcode map as a list of cases, each match an opcode alone in a word (R58). -/
theorem mem_opcodeMap_iff {row : OpRow} : row ∈ opcodeMap ↔
    row = ⟨"modred", placeField 0x01#8 0, 0xFFF000FF#32⟩ ∨
    row = ⟨"modmul", placeField 0x02#8 0, 0xFF0000FF#32⟩ ∨
    row = ⟨"montmul", placeField 0x03#8 0, 0xFF0000FF#32⟩ ∨
    row = ⟨"modexp", placeField 0x04#8 0, 0xFF0000FF#32⟩ ∨
    row = ⟨"mrwit", placeField 0x05#8 0, 0xFFF000FF#32⟩ ∨
    row = ⟨"gcd", placeField 0x06#8 0, 0xFFF000FF#32⟩ ∨
    row = ⟨"modinv", placeField 0x07#8 0, 0xFFF000FF#32⟩ ∨
    row = ⟨"crt", placeField 0x08#8 0, 0x000000FF#32⟩ := by
  simp [opcodeMap, placeField]

/-- Every mask keeps the low byte, so a word has the opcode of a row it selects (R58). -/
theorem op_of_selects {w : Word} {row : OpRow} (hrow : row ∈ opcodeMap)
    (h : row.selects w = true) : w.extractLsb' 0 8 = row.matchBits.extractLsb' 0 8 := by
  have hmask : ∀ r ∈ opcodeMap, ∀ i < 8, r.maskBits.getLsbD (0 + i) = true := by decide
  exact extract_of_mask ((row.selects_iff w).1 h) 0 8 (hmask row hrow)

/-- No two rows have one opcode (R58). -/
theorem eq_of_matchBits_op_eq : ∀ row ∈ opcodeMap, ∀ row' ∈ opcodeMap,
    row.matchBits.extractLsb' 0 8 = row'.matchBits.extractLsb' 0 8 → row = row' := by
  decide

/-! ### The command of a word -/

/-- A word decodes to the command whose fields it holds (R59). -/
theorem decode_eq_ok_iff {w : Word} {i : Instr} : decode w = .ok i ↔ i.fields = fieldsOf w := by
  refine ⟨fields_of_decodeFields, fun h => ?_⟩
  rw [decode, ← h, decodeFields_fields]

/-- Only the opcode and the unused fields of a command are fixed; every other field is free (R58). -/
theorem Fields.mk_eq_of {f : Fields} {op : BitVec 8} {rs3 rs4 rs5 : RegIdx} (hop : f.op = op)
    (h3 : f.rs3 = rs3) (h4 : f.rs4 = rs4) (h5 : f.rs5 = rs5) :
    (⟨op, f.rd, f.rs1, f.rs2, rs3, rs4, rs5⟩ : Fields) = f := by
  subst hop h3 h4 h5
  rfl

/-- A word that decodes to a command selects that command's row (R59). -/
theorem exists_row_of_decode {w : Word} {i : Instr} (h : decode w = .ok i) :
    ∃ row ∈ opcodeMap, row.name = i.name ∧ row.selects w = true := by
  have hf : fieldsOf w = i.fields := (decode_eq_ok_iff.1 h).symm
  simp only [OpRow.selects_iff]
  cases i with
  | modred =>
    exact ⟨opcodeMap[0], by decide, rfl,
      (and_mask_rs345_iff w 0x01#8).2 (by simp [hf, Instr.fields])⟩
  | modmul =>
    exact ⟨opcodeMap[1], by decide, rfl,
      (and_mask_rs45_iff w 0x02#8).2 (by simp [hf, Instr.fields])⟩
  | montmul =>
    exact ⟨opcodeMap[2], by decide, rfl,
      (and_mask_rs45_iff w 0x03#8).2 (by simp [hf, Instr.fields])⟩
  | modexp =>
    exact ⟨opcodeMap[3], by decide, rfl,
      (and_mask_rs45_iff w 0x04#8).2 (by simp [hf, Instr.fields])⟩
  | mrwit =>
    exact ⟨opcodeMap[4], by decide, rfl,
      (and_mask_rs345_iff w 0x05#8).2 (by simp [hf, Instr.fields])⟩
  | gcd =>
    exact ⟨opcodeMap[5], by decide, rfl,
      (and_mask_rs345_iff w 0x06#8).2 (by simp [hf, Instr.fields])⟩
  | modinv =>
    exact ⟨opcodeMap[6], by decide, rfl,
      (and_mask_rs345_iff w 0x07#8).2 (by simp [hf, Instr.fields])⟩
  | crt =>
    exact ⟨opcodeMap[7], by decide, rfl,
      (and_mask_op_iff w 0x08#8).2 (by simp [hf, Instr.fields])⟩

/-- A word that selects a row decodes to that row's command (R59). -/
theorem exists_decode_of_row {w : Word} {row : OpRow} (hrow : row ∈ opcodeMap)
    (h : row.selects w = true) : ∃ i, decode w = .ok i ∧ i.name = row.name := by
  rw [OpRow.selects_iff] at h
  simp only [decode_eq_ok_iff]
  obtain rfl | rfl | rfl | rfl | rfl | rfl | rfl | rfl := mem_opcodeMap_iff.1 hrow
  · obtain ⟨hop, h3, h4, h5⟩ := (and_mask_rs345_iff w _).1 h
    exact ⟨.modred _ _ _, Fields.mk_eq_of hop h3 h4 h5, rfl⟩
  · obtain ⟨hop, h4, h5⟩ := (and_mask_rs45_iff w _).1 h
    exact ⟨.modmul _ _ _ _, Fields.mk_eq_of hop rfl h4 h5, rfl⟩
  · obtain ⟨hop, h4, h5⟩ := (and_mask_rs45_iff w _).1 h
    exact ⟨.montmul _ _ _ _, Fields.mk_eq_of hop rfl h4 h5, rfl⟩
  · obtain ⟨hop, h4, h5⟩ := (and_mask_rs45_iff w _).1 h
    exact ⟨.modexp _ _ _ _, Fields.mk_eq_of hop rfl h4 h5, rfl⟩
  · obtain ⟨hop, h3, h4, h5⟩ := (and_mask_rs345_iff w _).1 h
    exact ⟨.mrwit _ _ _, Fields.mk_eq_of hop h3 h4 h5, rfl⟩
  · obtain ⟨hop, h3, h4, h5⟩ := (and_mask_rs345_iff w _).1 h
    exact ⟨.gcd _ _ _, Fields.mk_eq_of hop h3 h4 h5, rfl⟩
  · obtain ⟨hop, h3, h4, h5⟩ := (and_mask_rs345_iff w _).1 h
    exact ⟨.modinv _ _ _, Fields.mk_eq_of hop h3 h4 h5, rfl⟩
  · exact ⟨.crt _ _ _ _ _ _, Fields.mk_eq_of ((and_mask_op_iff w _).1 h) rfl rfl rfl, rfl⟩

/-- Settles O54: a word and its row fix the same fields, and rows differ in the opcode that every mask
keeps. -/
theorem decodeFollowsTheOpcodeMap : Obligations.DecodeFollowsTheOpcodeMap :=
  ⟨fun _ _ h => exists_row_of_decode h, fun _ _ hrow h => exists_decode_of_row hrow h,
    fun _ row row' hrow hrow' h h' => eq_of_matchBits_op_eq row hrow row' hrow'
      ((op_of_selects hrow h).symm.trans (op_of_selects hrow' h'))⟩

/-! ### The illegal words -/

/-- A register field is 0 when its bits are, as a number (R14, R56). -/
theorem regField_eq_zero_iff (w : Word) (lo : Nat) :
    (w.extractLsb' lo 4).toFin = 0 ↔ w.toNat / 2 ^ lo % 16 = 0 := by
  rw [Fin.ext_iff, BitVec.val_toFin, BitVec.extractLsb'_toNat, Nat.shiftRight_eq_div_pow]
  rfl

section
variable (w : Word)

theorem fieldsOf_rs3_eq_zero_iff : (fieldsOf w).rs3 = 0 ↔ w.toNat / 2 ^ 20 % 16 = 0 :=
  regField_eq_zero_iff w 20

theorem fieldsOf_rs4_eq_zero_iff : (fieldsOf w).rs4 = 0 ↔ w.toNat / 2 ^ 24 % 16 = 0 :=
  regField_eq_zero_iff w 24

theorem fieldsOf_rs5_eq_zero_iff : (fieldsOf w).rs5 = 0 ↔ w.toNat / 2 ^ 28 % 16 = 0 :=
  regField_eq_zero_iff w 28

/-- Bits of a word are all 0 when they are 0 as a number (R14). -/
theorem bits_eq_zero_iff (lo len : Nat) :
    w.extractLsb' lo len = 0#len ↔ w.toNat / 2 ^ lo % 2 ^ len = 0 := by
  rw [← BitVec.toNat_inj, BitVec.extractLsb'_toNat, Nat.shiftRight_eq_div_pow, BitVec.toNat_ofNat,
    Nat.zero_mod]

/-- The fields MODRED, MRWIT, GCD and MODINV leave unused are bits [31:20] (R56, R58). -/
theorem bits_from_20_eq_zero_iff : w.extractLsb' 20 12 = 0#12 ↔
    (fieldsOf w).rs3 = 0 ∧ (fieldsOf w).rs4 = 0 ∧ (fieldsOf w).rs5 = 0 := by
  rw [bits_eq_zero_iff, fieldsOf_rs3_eq_zero_iff, fieldsOf_rs4_eq_zero_iff,
    fieldsOf_rs5_eq_zero_iff]
  omega

/-- The fields MODMUL, MONTMUL and MODEXP leave unused are bits [31:24] (R56, R58). -/
theorem bits_from_24_eq_zero_iff : w.extractLsb' 24 8 = 0#8 ↔
    (fieldsOf w).rs4 = 0 ∧ (fieldsOf w).rs5 = 0 := by
  rw [bits_eq_zero_iff, fieldsOf_rs4_eq_zero_iff, fieldsOf_rs5_eq_zero_iff]
  omega

end

/-- A word that is no command's is illegal (R59). -/
theorem decode_error_iff_not_ok (w : Word) :
    (∃ e, decode w = .error e) ↔ ¬ ∃ i, decode w = .ok i := by
  cases decode w <;> simp

/-- A word has a command exactly when it selects a row (R59). -/
theorem exists_decode_iff_exists_row (w : Word) :
    (∃ i, decode w = .ok i) ↔ ∃ row ∈ opcodeMap, row.selects w = true := by
  constructor
  · rintro ⟨i, h⟩
    obtain ⟨row, hrow, -, hsel⟩ := exists_row_of_decode h
    exact ⟨row, hrow, hsel⟩
  · rintro ⟨row, hrow, hsel⟩
    obtain ⟨i, h, -⟩ := exists_decode_of_row hrow hsel
    exact ⟨i, h⟩

/-- The words that have a command, row by row: the row's opcode, and its unused bits 0 (R58, R59). -/
theorem exists_decode_iff_op (w : Word) : (∃ i, decode w = .ok i) ↔
    w.extractLsb' 0 8 = 1#8 ∧ w.extractLsb' 20 12 = 0#12 ∨
    w.extractLsb' 0 8 = 2#8 ∧ w.extractLsb' 24 8 = 0#8 ∨
    w.extractLsb' 0 8 = 3#8 ∧ w.extractLsb' 24 8 = 0#8 ∨
    w.extractLsb' 0 8 = 4#8 ∧ w.extractLsb' 24 8 = 0#8 ∨
    w.extractLsb' 0 8 = 5#8 ∧ w.extractLsb' 20 12 = 0#12 ∨
    w.extractLsb' 0 8 = 6#8 ∧ w.extractLsb' 20 12 = 0#12 ∨
    w.extractLsb' 0 8 = 7#8 ∧ w.extractLsb' 20 12 = 0#12 ∨
    w.extractLsb' 0 8 = 8#8 := by
  have hop : (fieldsOf w).op = w.extractLsb' 0 8 := rfl
  simp only [exists_decode_iff_exists_row, mem_opcodeMap_iff, or_and_right, exists_or,
    exists_eq_left, OpRow.selects_iff, and_mask_rs345_iff, and_mask_rs45_iff, and_mask_op_iff, hop,
    bits_from_20_eq_zero_iff, bits_from_24_eq_zero_iff]

/-- The opcodes below 0x09: 0x00 and the eight of the map (R58). -/
theorem opcode_cases {op : BitVec 8} (h : op < 0x09#8) : op = 0#8 ∨ op = 1#8 ∨ op = 2#8 ∨
    op = 3#8 ∨ op = 4#8 ∨ op = 5#8 ∨ op = 6#8 ∨ op = 7#8 ∨ op = 8#8 := by
  bv_omega

/-- The illegal words: an undefined opcode, or a nonzero unused field under a defined one (R60). -/
theorem decode_error_iff (w : Word) : (∃ e, decode w = .error e) ↔
    (w.extractLsb' 0 8 = 0#8 ∨ 0x09#8 ≤ w.extractLsb' 0 8 ∨
      ((w.extractLsb' 0 8 = 1#8 ∨ w.extractLsb' 0 8 = 5#8 ∨ w.extractLsb' 0 8 = 6#8 ∨
        w.extractLsb' 0 8 = 7#8) ∧ w.extractLsb' 20 12 ≠ 0#12) ∨
      ((w.extractLsb' 0 8 = 2#8 ∨ w.extractLsb' 0 8 = 3#8 ∨ w.extractLsb' 0 8 = 4#8) ∧
        w.extractLsb' 24 8 ≠ 0#8)) := by
  rw [decode_error_iff_not_ok, exists_decode_iff_op]
  generalize w.extractLsb' 0 8 = op
  by_cases h : 0x09#8 ≤ op
  · have hne (c : BitVec 8) (hc : c < 0x09#8) : op ≠ c := by
      rintro rfl
      exact BitVec.not_lt.2 h hc
    simp [h, hne]
  · obtain rfl | rfl | rfl | rfl | rfl | rfl | rfl | rfl | rfl := opcode_cases (BitVec.not_le.1 h)
    all_goals simp

end Sys2Proof

namespace Sys2Proof.Machine

/-! ### The completion of an illegal word -/

/-- In every form of the engine's turn an illegal word completes with ILLEGAL_CMD (R60, R94). -/
theorem step_enginesTurn_illegal {s : State} {rest : List Event} {e : Illegal}
    (h : s.EnginesTurn rest) (hd : decode s.cmd = .error e) :
    step s = .next (State.completeErr { s with agenda := rest } .illegalCmd) := by
  rw [step_enginesTurn h]
  exact engineTurn_illegal (s := { s with agenda := rest }) h.1 hd

/-- Settles O24: the illegal words are those that select no row of the opcode map; such a word is accepted
as any word is, and the engine's turn completes it. -/
theorem illegalWordsCompleteWithIllegalCmd : Obligations.IllegalWordsCompleteWithIllegalCmd := by
  refine ⟨decode_error_iff, fun s w e l hd hp ha => ?_, fun s rest e h hd => ?_⟩
  · have hturn : (s.popEvent.accept w).EnginesTurn l := ⟨rfl, .inr (.inl (by simp [ha]))⟩
    exact ⟨_, ⟨_, step_accept ha busTarget_cmd hp, _, step_enginesTurn_illegal hturn hd, rfl⟩,
      rfl, rfl, rfl, rfl, rfl, rfl, rfl, rfl, rfl, rfl, rfl⟩
  · exact ⟨_, step_enginesTurn_illegal h hd, completedErr_completeErr _ _⟩

end Sys2Proof.Machine

/-!
PROOFS of the statements about issue and results (40_command_execution.md): what a CMD write does in
either phase, that a command's outcome does not depend on its destination, and that no result is truncated.
First the step of a dropped CMD write, then what a command with another destination computes, then a bound
for each function the machine runs.
-/

namespace Sys2Proof

@[simp] theorem Instr.dest_withDest (i : Instr) (r : RegIdx) : (i.withDest r).dest = r := by
  cases i <;> rfl

namespace Machine

/-! ### Issue -/

/-- The step of a CMD write while BUSY sets OVR (R68). -/
theorem step_overrun {s : State} {a : Addr} {v : Word} {l : List Event}
    (h : s.agenda = .write a v :: l) (ha : busTarget a = .cmd) (hp : s.phase = .busy) :
    step s = .next s.popEvent.markOverrun := by
  rw [step_write h, busWrite_of_cmd ha, writeCmd_busy (s := s.popEvent) hp]

/-! ### The destination of a command -/

/-- What a command computes does not depend on its destination (R72). -/
@[simp] theorem resultOf_withDest (i : Instr) (r : RegIdx) (s : State) :
    resultOf (i.withDest r) s = resultOf i s := by
  cases i <;> rfl

theorem exec_withDest (i : Instr) (r : RegIdx) (s : State) :
    exec (i.withDest r) s = .next (s.complete r (resultOf i s)) := by
  rw [exec_eq_complete, Instr.dest_withDest, resultOf_withDest]

/-- Completions of one result into two registers agree in flag, error and value written (R70, R72). -/
theorem complete_agree (s : State) (r r' : RegIdx) (res : Result) :
    (s.complete r res).flag = (s.complete r' res).flag ∧
    (s.complete r res).err = (s.complete r' res).err ∧
    (s.complete r res).ecode = (s.complete r' res).ecode ∧
    ((s.complete r res).err = false → (s.complete r res).reg r = (s.complete r' res).reg r') := by
  cases res with
  | ok v f => simp
  | err c => simp

/-! ### Every result is below 2^W -/

section
variable {w a b g e m v : Nat} {f : Bool}

theorem modredResult_lt (h : modredResult a m = .ok v f) : v < m := by
  simp only [modredResult, ite_err_else_eq_ok, Result.ok.injEq] at h
  obtain ⟨hm, rfl, -⟩ := h
  exact Nat.mod_lt _ (Nat.pos_of_ne_zero hm)

theorem modmulResult_lt (h : modmulResult a b m = .ok v f) : v < m := by
  simp only [modmulResult, ite_err_else_eq_ok, Result.ok.injEq] at h
  obtain ⟨hm, rfl, -⟩ := h
  exact Nat.mod_lt _ (Nat.pos_of_ne_zero hm)

theorem montmulResult_lt (h : montmulResult w a b m = .ok v f) : v < m := by
  simp only [montmulResult, ite_err_else_eq_ok, Result.ok.injEq] at h
  obtain ⟨hm, -, -, rfl, -⟩ := h
  exact Arith.montmul_lt (Nat.pos_of_ne_zero hm)

theorem modexpResult_lt (h : modexpResult g e m = .ok v f) : v < m := by
  simp only [modexpResult, ite_err_else_eq_ok, Result.ok.injEq] at h
  obtain ⟨hm, -, rfl, -⟩ := h
  rw [Arith.powMod_eq]
  exact Nat.mod_lt _ (Nat.pos_of_ne_zero hm)

theorem modinvResult_lt (h : modinvResult a m = .ok v f) : v < m := by
  simp only [modinvResult, ite_err_else_eq_ok, ne_eq, not_not, Result.ok.injEq] at h
  obtain ⟨hm, hg, rfl, -⟩ := h
  exact (Arith.inv_spec (Nat.pos_of_ne_zero hm) hg).2

/-- A common divisor is at most an operand that is not 0; if a is 0, the result is b (R15, R83). -/
theorem gcdResult_le_max (h : gcdResult a b = .ok v f) : v ≤ max a b := by
  obtain ⟨rfl, -⟩ := Result.ok.inj h
  obtain rfl | ha := Nat.eq_zero_or_pos a
  · simp
  · exact (Nat.gcd_le_left b ha).trans (le_max_left a b)

/-- The verdict is one bit (R87). -/
theorem mrwitResult_le_one {x : Nat} (h : mrwitResult x a = .ok v f) : v ≤ 1 := by
  rw [mrwitResult_value h]
  exact f.toNat_le

/-- The overflow check of CRT bounds its result (R90). -/
theorem crtResult_lt {m1 m2 p q qinv : Nat} (h : crtResult w m1 m2 p q qinv = .ok v f) :
    v < 2 ^ w := by
  simp only [crtResult, ite_err_else_eq_ok, Result.ok.injEq] at h
  obtain ⟨-, -, hv, rfl, -⟩ := h
  exact Nat.lt_of_not_le hv

end

/-! ### MODMUL, and CRT with one register for all its operands -/

/-- MODMUL with a modulus that is not 0 completes with the product reduced (R76). -/
theorem exec_modmul_completedOk {s : State} (hs : s.WellSized) (rd a b : RegIdx) {m : RegIdx}
    (hm : s.x m ≠ 0) : ∃ t, exec (.modmul rd a b m) s = .next t ∧
      CompletedOk s t rd (s.x a * s.x b % s.x m) false := by
  have hr : resultOf (.modmul rd a b m) s = .ok (s.x a * s.x b % s.x m) false := if_neg hm
  refine ⟨_, exec_eq_complete _ s, ?_⟩
  rw [hr]
  exact completedOk_completeOk s rd false ((modmulResult_lt hr).trans (hs.x_lt m))

/-- CRT of one number for all its operands: its remainder m1 is not below its modulus p, so it ends with
an error (R90). -/
theorem crtResult_same (w n : Nat) :
    crtResult w n n n n n = .err (if n = 0 then .zeroModulus else .range) := by
  by_cases hn : n = 0 <;> simp [crtResult, hn]

/-! ### The statements -/

/-- Settles O21: the write is accepted. -/
theorem cmdWriteWhileIdleIsAccepted : Obligations.CmdWriteWhileIdleIsAccepted := by
  refine ⟨fun s w l hp h => ?_, State.busPeek_cmd⟩
  rw [step_accept h busTarget_cmd hp, State.popEvent_eq h]
  rfl

/-- Settles O22: the write marks an overrun. -/
theorem cmdWriteWhileBusyIsDropped : Obligations.CmdWriteWhileBusyIsDropped := by
  intro s w l hp h
  have hstep : step s = .next { s with ovr := true, agenda := l } := by
    rw [step_overrun h busTarget_cmd hp, State.popEvent_eq h]
    rfl
  refine ⟨hstep, fun t ht => ?_⟩
  rw [hstep] at ht
  cases ht
  exact ⟨rfl, hp, rfl⟩

/-- Settles O29: a command is its result, which does not depend on the destination, completed into it. -/
theorem destinationMayAliasAnySource : Obligations.DestinationMayAliasAnySource := by
  refine ⟨fun i r r' s t t' h h' => ?_, fun r m s hs hm => exec_modmul_completedOk hs r r r hm,
    fun r s => ?_⟩
  · rw [exec_withDest] at h h'
    cases h
    cases h'
    exact complete_agree s r r' (resultOf i s)
  · have hr : resultOf (.crt r r r r r r) s = .err _ := crtResult_same _ (s.x r)
    refine ⟨_, exec_eq_complete _ s, ?_⟩
    rw [hr]
    exact completedErr_completeErr s _

/-- Settles O31: a reduced result is below its modulus, itself below 2^W; GCD, MRWIT and CRT have bounds
of their own. -/
theorem resultsAreBelowTwoToTheWidth : Obligations.ResultsAreBelowTwoToTheWidth := by
  intro w a b c d e v f ha hb hc hd he
  have below {m : Nat} (hm : m < 2 ^ w) (hv : v < m) : v < m ∧ v < 2 ^ w := ⟨hv, hv.trans hm⟩
  refine ⟨fun h => below hb (modredResult_lt h), fun h => below hc (modmulResult_lt h),
    fun h => below hc (montmulResult_lt h), fun h => below hc (modexpResult_lt h),
    fun h => below hb (modinvResult_lt h), fun h => ?_, fun hw h => ?_, crtResult_lt⟩
  · have hv := gcdResult_le_max h
    exact ⟨hv, hv.trans_lt (max_lt ha hb)⟩
  · have hv := mrwitResult_le_one h
    exact ⟨hv, hv.trans_lt (Nat.one_lt_two_pow hw.ne')⟩

end Machine

end Sys2Proof

/-!
PROOFS of the statements about modular reduction and multiplication (41_modmul.md): MODRED, MODMUL and
MONTMUL, and the identities of the Montgomery domain. First what the words of these commands decode to, and
that a command completes with what it computes; then what MONTMUL computes: every claim about its result is
derived from its being the only t below m with t·2^W ≡ a·b (mod m).
-/

namespace Sys2Proof

/-! ### The words of the three commands -/

/-- A word that matches MODRED's row is MODRED with the word's fields (R58, R75). -/
theorem decode_of_match_modred {w : Word} (h : w &&& 0xFFF000FF#32 = 0x00000001#32) :
    decode w = .ok (.modred (fieldsOf w).rd (fieldsOf w).rs1 (fieldsOf w).rs2) := by
  obtain ⟨hop, h3, h4, h5⟩ := (and_mask_rs345_iff w 0x01#8).1 h
  exact decode_eq_ok_iff.2 (Fields.mk_eq_of hop h3 h4 h5)

/-- A word that matches MODMUL's row is MODMUL with the word's fields (R58, R76). -/
theorem decode_of_match_modmul {w : Word} (h : w &&& 0xFF0000FF#32 = 0x00000002#32) :
    decode w = .ok (.modmul (fieldsOf w).rd (fieldsOf w).rs1 (fieldsOf w).rs2 (fieldsOf w).rs3) := by
  obtain ⟨hop, h4, h5⟩ := (and_mask_rs45_iff w 0x02#8).1 h
  exact decode_eq_ok_iff.2 (Fields.mk_eq_of hop rfl h4 h5)

/-- A word that matches MONTMUL's row is MONTMUL with the word's fields (R58, R77). -/
theorem decode_of_match_montmul {w : Word} (h : w &&& 0xFF0000FF#32 = 0x00000003#32) :
    decode w = .ok (.montmul (fieldsOf w).rd (fieldsOf w).rs1 (fieldsOf w).rs2 (fieldsOf w).rs3) := by
  obtain ⟨hop, h4, h5⟩ := (and_mask_rs45_iff w 0x03#8).1 h
  exact decode_eq_ok_iff.2 (Fields.mk_eq_of hop rfl h4 h5)

namespace Machine

/-! ### A command completes with what it computes -/

section
variable {i : Instr} {s : State}

/-- A command whose computation ends in an error completes with that error (R70, R94). -/
theorem exec_completedErr {c : ErrCode} (h : resultOf i s = .err c) :
    ∃ t, exec i s = .next t ∧ CompletedErr s t c := by
  refine ⟨_, exec_eq_complete i s, ?_⟩
  rw [h]
  exact completedErr_completeErr s c

/-- A command that computes a number below 2^W completes with it in its destination (R70). -/
theorem exec_completedOk {v : Nat} {f : Bool} (h : resultOf i s = .ok v f)
    (hv : v < 2 ^ s.params.width) : ∃ t, exec i s = .next t ∧ CompletedOk s t i.dest v f := by
  refine ⟨_, exec_eq_complete i s, ?_⟩
  rw [h]
  exact completedOk_completeOk s i.dest f hv

end

/-! ### What MONTMUL computes -/

section
variable {w a b m t : Nat}

theorem montmulResult_zero (hm : m = 0) : montmulResult w a b m = .err .zeroModulus := if_pos hm

theorem montmulResult_even (hm : m ≠ 0) (he : m % 2 = 0) :
    montmulResult w a b m = .err .evenModulus := by
  simp [montmulResult, hm, he]

theorem montmulResult_range (ho : m % 2 = 1) (hr : m ≤ a ∨ m ≤ b) :
    montmulResult w a b m = .err .range := by
  have hm : m ≠ 0 := by omega
  simp [montmulResult, hm, ho, hr]

theorem montmulResult_ok (ho : m % 2 = 1) (ha : a < m) (hb : b < m) :
    montmulResult w a b m = .ok (Arith.montmul w a b m) false := by
  have hm : m ≠ 0 := by omega
  simp [montmulResult, hm, ho, ha, hb]

/-- MONTMUL computes any t below m with t·2^W ≡ a·b (mod m) (R77). -/
theorem montmulResult_eq_ok (ho : m % 2 = 1) (ha : a < m) (hb : b < m) (ht : t < m)
    (h : t * 2 ^ w ≡ a * b [MOD m]) : montmulResult w a b m = .ok t false := by
  rw [montmulResult_ok ho ha hb, ← Arith.montmul_unique ho ht h]

/-- Multiplication by an inverse of 2^W undoes the multiplication by 2^W (R77). -/
theorem mod_mul_two_pow_modEq_of_inverse {n rinv : Nat} (h : 2 ^ w * rinv ≡ 1 [MOD m]) :
    n * rinv % m * 2 ^ w ≡ n [MOD m] :=
  calc n * rinv % m * 2 ^ w ≡ n * rinv * 2 ^ w [MOD m] := (Nat.mod_modEq _ _).mul_right _
    _ = n * (2 ^ w * rinv) := by ring
    _ ≡ n * 1 [MOD m] := h.mul_left n
    _ = n := mul_one n

end

/-! ### The Montgomery domain -/

/-- The congruence by which a product with rr enters the domain (R78). -/
theorem enter_domain_modEq (w a m : Nat) :
    a * 2 ^ w % m * 2 ^ w ≡ a * (2 ^ (2 * w) % m) [MOD m] :=
  calc a * 2 ^ w % m * 2 ^ w ≡ a * 2 ^ w * 2 ^ w [MOD m] := (Nat.mod_modEq _ _).mul_right _
    _ = a * 2 ^ (2 * w) := by ring
    _ ≡ a * (2 ^ (2 * w) % m) [MOD m] := (Nat.mod_modEq _ _).symm.mul_left a

/-- The congruence by which a product stays in the domain (R78). -/
theorem mul_in_domain_modEq (w a b m : Nat) :
    a * b * 2 ^ w % m * 2 ^ w ≡ (a * 2 ^ w % m) * (b * 2 ^ w % m) [MOD m] :=
  calc a * b * 2 ^ w % m * 2 ^ w ≡ a * b * 2 ^ w * 2 ^ w [MOD m] := (Nat.mod_modEq _ _).mul_right _
    _ = (a * 2 ^ w) * (b * 2 ^ w) := by ring
    _ ≡ (a * 2 ^ w % m) * (b * 2 ^ w % m) [MOD m] :=
        ((Nat.mod_modEq _ _).mul (Nat.mod_modEq _ _)).symm

/-- MODEXP with an odd modulus computes the exact power reduced (R80). -/
theorem modexpResult_ok {g e m : Nat} (ho : m % 2 = 1) :
    modexpResult g e m = .ok (g ^ e % m) false := by
  have hm : m ≠ 0 := by omega
  simp [modexpResult, hm, ho, Arith.powMod_eq]

/-! ### The statements -/

/-- Settles O37: MODRED's row fixes its opcode and unused fields, and a remainder is below its modulus,
hence below 2^W. -/
theorem modredReducesModulo : Obligations.ModredReducesModulo := by
  refine ⟨fun w h => decode_of_match_modred h, fun rd a m s hs => ⟨fun hm => ?_, fun hm => ?_⟩⟩
  · exact exec_completedErr (if_pos hm)
  · have hr : resultOf (.modred rd a m) s = .ok (s.x a % s.x m) false := if_neg hm
    exact exec_completedOk hr ((modredResult_lt hr).trans (hs.x_lt m))

/-- Settles O38: as MODRED, of the exact product. -/
theorem modmulMultipliesModulo : Obligations.ModmulMultipliesModulo :=
  ⟨fun _ h => decode_of_match_modmul h, fun rd a b _ _ hs =>
    ⟨fun hm => exec_completedErr (if_pos hm), fun hm => exec_modmul_completedOk hs rd a b hm⟩⟩

/-- Settles O39: the checks in order, and the Montgomery product, which is the only t below m with
t·2^W ≡ a·b (mod m); a·b·Rinv mod m is such a t. -/
theorem montmulIsTheMontgomeryProduct : Obligations.MontmulIsTheMontgomeryProduct := by
  refine ⟨fun w h => decode_of_match_montmul h, fun rd a b m s hs =>
    ⟨fun hm => ?_, fun hm he => ?_, fun ho hr => ?_, fun ho ha hb => ?_⟩⟩
  · exact exec_completedErr (montmulResult_zero hm)
  · exact exec_completedErr (montmulResult_even hm he)
  · exact exec_completedErr (montmulResult_range ho hr)
  · have hr : resultOf (.montmul rd a b m) s = .ok _ false := montmulResult_ok ho ha hb
    have hlt := montmulResult_lt hr
    obtain ⟨t, ht, hok⟩ := exec_completedOk hr (hlt.trans (hs.x_lt m))
    refine ⟨t, _, ht, hok, hlt, Arith.montmul_spec ho,
      fun v hv h => Arith.montmul_unique ho hv h, fun rinv h => ?_⟩
    have hinv : s.x a * s.x b * rinv % s.x m * 2 ^ s.params.width ≡ s.x a * s.x b [MOD s.x m] :=
      mod_mul_two_pow_modEq_of_inverse h
    exact (Arith.montmul_unique ho (Nat.mod_lt _ (by omega)) hinv).symm

/-- Settles O45: each named result is below m and has the congruence of the Montgomery product. -/
theorem montgomeryDomainIdentities : Obligations.MontgomeryDomainIdentities := by
  intro w a b m ho h3 ha hb
  have hlt (n : Nat) : n % m < m := Nat.mod_lt n (by omega)
  refine ⟨montmulResult_eq_ok ho ha (hlt _) (hlt _) (enter_domain_modEq w a m),
    ⟨_, montmulResult_ok ho ha (by omega), Arith.montmul_lt (by omega), ?_⟩,
    montmulResult_eq_ok ho (hlt _) (hlt _) (hlt _) (mul_in_domain_modEq w a b m),
    modexpResult_ok ho⟩
  have hspec : Arith.montmul w a 1 m * 2 ^ w ≡ a * 1 [MOD m] := Arith.montmul_spec ho
  rwa [mul_one, Nat.ModEq, Nat.mod_eq_of_lt ha] at hspec

end Machine

end Sys2Proof

/-!
PROOFS of the statement about modular exponentiation (42_modexp.md): MODEXP, its word, its two checks in
order, and the exact power.
-/

namespace Sys2Proof

/-- A word that matches MODEXP's row is MODEXP with the word's fields (R58, R80). -/
theorem decode_of_match_modexp {w : Word} (h : w &&& 0xFF0000FF#32 = 0x00000004#32) :
    decode w = .ok (.modexp (fieldsOf w).rd (fieldsOf w).rs1 (fieldsOf w).rs2 (fieldsOf w).rs3) := by
  obtain ⟨hop, h4, h5⟩ := (and_mask_rs45_iff w 0x04#8).1 h
  exact decode_eq_ok_iff.2 (Fields.mk_eq_of hop rfl h4 h5)

namespace Machine

/-! ### What MODEXP computes -/

section
variable {g e m : Nat}

theorem modexpResult_zero (hm : m = 0) : modexpResult g e m = .err .zeroModulus := if_pos hm

theorem modexpResult_even (hm : m ≠ 0) (he : m % 2 = 0) :
    modexpResult g e m = .err .evenModulus := by
  simp [modexpResult, hm, he]

end

/-! ### The statement -/

/-- Settles O40: the checks in order, and the exact power reduced, which is below its modulus, hence
below 2^W. -/
theorem modexpIsTheExactPowerModulo : Obligations.ModexpIsTheExactPowerModulo := by
  refine ⟨fun w h => decode_of_match_modexp h, fun rd base exp m s hs =>
    ⟨fun hm => ?_, fun hm he => ?_, fun ho => ?_⟩⟩
  · exact exec_completedErr (modexpResult_zero hm)
  · exact exec_completedErr (modexpResult_even hm he)
  · have hr : resultOf (.modexp rd base exp m) s = .ok _ false := modexpResult_ok ho
    exact exec_completedOk hr ((modexpResult_lt hr).trans (hs.x_lt m))

end Machine

end Sys2Proof

/-!
PROOFS of the statements about the greatest common divisor and the modular inverse (43_gcd_modinv.md): GCD
and MODINV, their words, the two checks of MODINV in order, and what each computes.
-/

namespace Sys2Proof

/-! ### The words of the two commands -/

/-- A word that matches GCD's row is GCD with the word's fields (R58, R83). -/
theorem decode_of_match_gcd {w : Word} (h : w &&& 0xFFF000FF#32 = 0x00000006#32) :
    decode w = .ok (.gcd (fieldsOf w).rd (fieldsOf w).rs1 (fieldsOf w).rs2) := by
  obtain ⟨hop, h3, h4, h5⟩ := (and_mask_rs345_iff w 0x06#8).1 h
  exact decode_eq_ok_iff.2 (Fields.mk_eq_of hop h3 h4 h5)

/-- A word that matches MODINV's row is MODINV with the word's fields (R58, R84). -/
theorem decode_of_match_modinv {w : Word} (h : w &&& 0xFFF000FF#32 = 0x00000007#32) :
    decode w = .ok (.modinv (fieldsOf w).rd (fieldsOf w).rs1 (fieldsOf w).rs2) := by
  obtain ⟨hop, h3, h4, h5⟩ := (and_mask_rs345_iff w 0x07#8).1 h
  exact decode_eq_ok_iff.2 (Fields.mk_eq_of hop h3 h4 h5)

namespace Machine

/-! ### What MODINV computes -/

/-- The first operand need not be reduced: its remainder has the same divisors in common with m (R84). -/
theorem gcd_mod_self_left (a m : Nat) : Nat.gcd (a % m) m = Nat.gcd a m := by
  rw [← Nat.gcd_rec, Nat.gcd_comm]

section
variable {a m : Nat}

theorem modinvResult_zero (hm : m = 0) : modinvResult a m = .err .zeroModulus := if_pos hm

theorem modinvResult_noInverse (hm : m ≠ 0) (hg : Nat.gcd a m ≠ 1) :
    modinvResult a m = .err .noInverse := by
  simp [modinvResult, hm, gcd_mod_self_left, hg]

theorem modinvResult_ok (hm : m ≠ 0) (hg : Nat.gcd a m = 1) :
    modinvResult a m = .ok (Arith.inv a m) false := by
  simp [modinvResult, hm, gcd_mod_self_left, hg]

end

/-! ### The statements -/

/-- Settles O42: the result is at most an operand, hence below 2^W, and `Nat.gcd` has the divisibility
properties that fix it. -/
theorem gcdIsTheGreatestCommonDivisor : Obligations.GcdIsTheGreatestCommonDivisor := by
  refine ⟨fun w h => decode_of_match_gcd h, fun rd a b s hs => ?_⟩
  have hr : resultOf (.gcd rd a b) s = .ok (Nat.gcd (s.x a) (s.x b)) false := rfl
  obtain ⟨t, ht, hok⟩ :=
    exec_completedOk hr ((gcdResult_le_max hr).trans_lt (max_lt (hs.x_lt a) (hs.x_lt b)))
  refine ⟨t, _, ht, hok, Nat.gcd_dvd_left _ _, Nat.gcd_dvd_right _ _, fun c => Nat.dvd_gcd,
    fun hb => ?_⟩
  rw [hb, Nat.gcd_zero_right]

/-- Settles O43: the checks in order, and the inverse, which is the only r below m with
(a·r) mod m = 1 mod m. -/
theorem modinvIsTheReducedInverse : Obligations.ModinvIsTheReducedInverse := by
  refine ⟨fun w h => decode_of_match_modinv h, fun rd a m s hs =>
    ⟨fun hm => ?_, fun hm hg => ?_, fun hm hg => ?_⟩⟩
  · exact exec_completedErr (modinvResult_zero hm)
  · exact exec_completedErr (modinvResult_noInverse hm hg)
  · have hr : resultOf (.modinv rd a m) s = .ok _ false := modinvResult_ok (by omega) hg
    have hlt := modinvResult_lt hr
    obtain ⟨t, ht, hok⟩ := exec_completedOk hr (hlt.trans (hs.x_lt m))
    have hg' : Nat.gcd (s.x a % s.x m) (s.x m) = 1 := (gcd_mod_self_left _ _).trans hg
    exact ⟨t, _, ht, hok, hlt, (Arith.inv_spec hm hg').1,
      fun r hrm h => Arith.inv_unique hm hg' h hrm⟩

end Machine

end Sys2Proof

/-!
PROOFS of the statement about the Miller-Rabin witness round (44_miller_rabin.md): MRWIT, its word, its three
checks in order, the decomposition of x − 1, and the verdict.
-/

namespace Sys2Proof

/-- A word that matches MRWIT's row is MRWIT with the word's fields (R58, R87). -/
theorem decode_of_match_mrwit {w : Word} (h : w &&& 0xFFF000FF#32 = 0x00000005#32) :
    decode w = .ok (.mrwit (fieldsOf w).rd (fieldsOf w).rs1 (fieldsOf w).rs2) := by
  obtain ⟨hop, h3, h4, h5⟩ := (and_mask_rs345_iff w 0x05#8).1 h
  exact decode_eq_ok_iff.2 (Fields.mk_eq_of hop h3 h4 h5)

namespace Machine

/-! ### What MRWIT computes -/

section
variable {x a : Nat}

theorem mrwitResult_zero (hx : x = 0) : mrwitResult x a = .err .zeroModulus := if_pos hx

theorem mrwitResult_even (hx : x ≠ 0) (he : x % 2 = 0) : mrwitResult x a = .err .evenModulus := by
  simp [mrwitResult, hx, he]

theorem mrwitResult_range (hx : x = 1) : mrwitResult x a = .err .range := by
  simp [mrwitResult, hx]

/-- Past its checks MRWIT computes the verdict, as its number and as its flag (R87). -/
theorem mrwitResult_ok (ho : x % 2 = 1) (h3 : 3 ≤ x) :
    mrwitResult x a = .ok (Arith.witnessVerdict x a).toNat (Arith.witnessVerdict x a) := by
  have hx : x ≠ 0 := by omega
  cases hv : Arith.witnessVerdict x a <;> simp [mrwitResult, hx, ho, h3.not_gt, hv]

/-- The decomposition of a round: for odd x ≥ 3 the even number x − 1 is d·2^k with d odd and k ≥ 1
(R87). -/
theorem exists_sub_one_eq_odd_mul_two_pow (ho : x % 2 = 1) (h3 : 3 ≤ x) :
    ∃ d k, x - 1 = d * 2 ^ k ∧ d % 2 = 1 ∧ 1 ≤ k := by
  obtain ⟨k, d, hodd, hx⟩ := Nat.exists_eq_two_pow_mul_odd (n := x - 1) (by omega)
  have hd : d % 2 = 1 := Nat.odd_iff.1 hodd
  refine ⟨d, k, by rw [hx, mul_comm], hd, Nat.one_le_iff_ne_zero.2 fun hk => ?_⟩
  rw [hk, pow_zero, one_mul] at hx
  omega

end

/-! ### The statement -/

/-- Settles O41: the checks in order; past them MRWIT completes with the verdict of the round, which
`witnessVerdict_eq_false_iff` reads off any decomposition of x − 1. -/
theorem mrwitRunsOneWitnessRound : Obligations.MrwitRunsOneWitnessRound := by
  refine ⟨fun w h => decode_of_match_mrwit h, fun rd x a s hs =>
    ⟨fun hx => ?_, fun hx he => ?_, fun hx => ?_, fun ho h3 => ?_⟩⟩
  · exact exec_completedErr (mrwitResult_zero hx)
  · exact exec_completedErr (mrwitResult_even hx he)
  · exact exec_completedErr (mrwitResult_range hx)
  · have hr : resultOf (.mrwit rd x a) s = .ok _ _ := mrwitResult_ok ho h3
    obtain ⟨t, ht, hok⟩ := exec_completedOk hr (s.params.bool_toNat_lt_two_pow_width _)
    obtain ⟨d, k, hdk, hd, hk⟩ := exists_sub_one_eq_odd_mul_two_pow ho h3
    have hverdict := Arith.witnessVerdict_eq_false_iff (a := s.x a) h3 hdk hd
    refine ⟨t, d, k, hdk, hd, hk, ht, fun hpass => ?_, fun hfail => ?_⟩
    · rwa [hverdict.2 hpass] at hok
    · have hcomposite := Bool.eq_true_of_not_eq_false (mt hverdict.1 hfail)
      rwa [hcomposite] at hok

end Machine

end Sys2Proof

/-!
PROOFS of the statements about Chinese-remainder recombination (45_crt.md): CRT, its word, its errors in order,
its result m2 + h·q, and the recombination law, which is arithmetic of that number alone.
-/

namespace Sys2Proof

/-- A word that matches CRT's row is CRT with the word's fields (R58, R90). -/
theorem decode_of_match_crt {w : Word} (h : w &&& 0x000000FF#32 = 0x00000008#32) :
    decode w = .ok (.crt (fieldsOf w).rd (fieldsOf w).rs1 (fieldsOf w).rs2 (fieldsOf w).rs3
      (fieldsOf w).rs4 (fieldsOf w).rs5) := by
  have hop := (and_mask_op_iff w 0x08#8).1 h
  exact decode_eq_ok_iff.2 (Fields.mk_eq_of hop rfl rfl rfl)

namespace Machine

/-! ### The number CRT recombines -/

namespace Arith

section
variable {m1 m2 p q qinv : Nat}

/-- Multiplication by q undoes the one by qinv, so h·q is the difference of the remainders modulo p (R90,
R92). -/
theorem crtH_mul_modEq (hp : 0 < p) (hinv : qinv * q ≡ 1 [MOD p]) :
    (crtH m1 m2 p qinv : Int) * q ≡ m1 - m2 [ZMOD p] := by
  have hone : (qinv : Int) * q ≡ 1 [ZMOD p] := by exact_mod_cast hinv
  calc (crtH m1 m2 p qinv : Int) * q
      = (qinv : Int) * ((m1 : Int) - m2 + p) % p * q := by rw [crtH_eq hp]
    _ ≡ (qinv : Int) * ((m1 : Int) - m2 + p) * q [ZMOD p] := (Int.mod_modEq _ _).mul_right _
    _ = (qinv : Int) * q * ((m1 : Int) - m2 + p) := by ring
    _ ≡ 1 * ((m1 : Int) - m2 + p) [ZMOD p] := hone.mul_right _
    _ ≡ m1 - m2 [ZMOD p] := by rw [one_mul]; exact Int.add_modEq_right

theorem crtValue_modEq_left (hp : 0 < p) (hinv : qinv * q ≡ 1 [MOD p]) :
    crtValue m1 m2 p q qinv ≡ m1 [MOD p] := by
  rw [← Int.natCast_modEq_iff]
  calc (crtValue m1 m2 p q qinv : Int) = m2 + crtH m1 m2 p qinv * q := by
        rw [crtValue]; push_cast; rfl
    _ ≡ m2 + (m1 - m2) [ZMOD p] := (crtH_mul_modEq hp hinv).add_left _
    _ = m1 := by ring

theorem crtValue_modEq_right : crtValue m1 m2 p q qinv ≡ m2 [MOD q] :=
  Nat.add_mul_mod_self_right _ _ _

/-- The multiple h·q leaves room for a remainder of q below p·q, as h < p (R92). -/
theorem crtValue_lt_mul (hp : 0 < p) (hm2 : m2 < q) : crtValue m1 m2 p q qinv < p * q :=
  calc m2 + crtH m1 m2 p qinv * q < q + crtH m1 m2 p qinv * q := Nat.add_lt_add_right hm2 _
    _ = (crtH m1 m2 p qinv + 1) * q := by ring
    _ ≤ p * q := Nat.mul_le_mul_right q (crtH_lt hp)

end

end Arith

/-! ### What CRT computes -/

section
variable {w m1 m2 p q qinv : Nat}

theorem crtResult_zero (hp : p = 0) : crtResult w m1 m2 p q qinv = .err .zeroModulus := if_pos hp

theorem crtResult_range (hp : p ≠ 0) (hr : p ≤ m1 ∨ q ≤ m2) :
    crtResult w m1 m2 p q qinv = .err .range := by
  simp [crtResult, hp, hr]

theorem crtResult_overflow (hm1 : m1 < p) (hm2 : m2 < q)
    (hv : 2 ^ w ≤ Arith.crtValue m1 m2 p q qinv) :
    crtResult w m1 m2 p q qinv = .err .overflow := by
  have hp : p ≠ 0 := by omega
  simp [crtResult, hp, hm1, hm2, hv]

/-- CRT succeeds exactly when all its checks pass (R90). -/
theorem crtResult_eq_ok_iff {v : Nat} {f : Bool} : crtResult w m1 m2 p q qinv = .ok v f ↔
    m1 < p ∧ m2 < q ∧ v < 2 ^ w ∧ v = Arith.crtValue m1 m2 p q qinv ∧ f = false := by
  simp only [crtResult, ite_err_else_eq_ok, Result.ok.injEq, not_or, not_le]
  constructor
  · rintro ⟨-, ⟨hm1, hm2⟩, hv, rfl, rfl⟩
    exact ⟨hm1, hm2, hv, rfl, rfl⟩
  · rintro ⟨hm1, hm2, hv, rfl, rfl⟩
    exact ⟨by omega, ⟨hm1, hm2⟩, hv, rfl, rfl⟩

end

/-! ### The statements -/

/-- Settles O44: the checks in order; h is the residue `crtH`, and only the size of m2 + h·q decides between
overflow and success. -/
theorem crtRecombines : Obligations.CrtRecombines := by
  refine ⟨fun w h => decode_of_match_crt h, fun rd m1 m2 p q qinv s _ =>
    ⟨fun hp => ?_, fun hp hr => ?_, fun hm1 hm2 => ?_⟩⟩
  · exact exec_completedErr (crtResult_zero hp)
  · exact exec_completedErr (crtResult_range hp hr)
  · have hp : 0 < s.x p := Nat.zero_lt_of_lt hm1
    refine ⟨_, Arith.crtH (s.x m1) (s.x m2) (s.x p) (s.x qinv), exec_eq_complete _ s,
      Arith.crtH_lt hp, Arith.crtH_eq hp, fun hover => ?_, fun hfits => ?_⟩
    · have hr : resultOf (.crt rd m1 m2 p q qinv) s = .err .overflow :=
        crtResult_overflow hm1 hm2 hover
      rw [hr]
      exact completedErr_completeErr s _
    · have hr : resultOf (.crt rd m1 m2 p q qinv) s = .ok _ false :=
        crtResult_eq_ok_iff.2 ⟨hm1, hm2, hfits, rfl, rfl⟩
      rw [hr]
      exact completedOk_completeOk s rd false hfits

/-- Settles O48: a CRT without error has passed its checks, and rd holds the number they admit. -/
theorem crtRecombinationLaw : Obligations.CrtRecombinationLaw := by
  intro rd m1 m2 p q qinv s t _ ht herr hp _ hinv
  obtain ⟨v, f, hr, rfl⟩ | ⟨c, -, rfl⟩ := exec_cases ht
  · obtain ⟨hm1, hm2, hv, hval, -⟩ := crtResult_eq_ok_iff.1 hr
    have hx : (s.completeOk rd v f).x rd = Arith.crtValue _ _ _ _ _ :=
      (s.completeOk_x_same rd f hv).trans hval
    rw [Instr.dest, hx]
    exact ⟨Nat.mod_eq_of_modEq (Arith.crtValue_modEq_left hp hinv) hm1,
      Nat.mod_eq_of_modEq Arith.crtValue_modEq_right hm2, Arith.crtValue_lt_mul hp hm2⟩
  · cases herr

end Machine

end Sys2Proof

/-!
PROOFS of the statements about exceptions and the interrupt (60_exceptions.md): irq is IRQ_EN AND DONE, and what
asserts and clears it. irq follows DONE under IRQ_EN, so each claim is derived from what sets and clears DONE.
-/

namespace Sys2Proof.Machine

/-! ### The interrupt output -/

namespace State

variable {s : State}

/-- STATUS.DONE is bit 1 (R28). -/
@[simp] theorem statusWord_bit_one (s : State) : s.statusWord[1] = s.done := by
  simp [State.statusWord, placeField]

theorem irq_eq_false_of_done_eq_false (h : s.done = false) : s.irq = false := by
  simp [State.irq, h]

theorem irq_eq_irqEn_of_done (h : s.done = true) : s.irq = s.irqEn := by
  simp [State.irq, h]

end State

/-- The engine's turn leaves IRQ_EN as it was (R70). -/
theorem EngineEffect.irqEn_eq {s t : State} (h : EngineEffect s t) : t.irqEn = s.irqEn := by
  cases h <;> rfl

/-! ### The statements -/

/-- Settles O34: bit 0 of CTRL is IRQ_EN and bit 1 of STATUS is DONE; DONE is cleared by the three events
named, and a completion sets it and leaves IRQ_EN. -/
theorem interruptIsEnableAndDone : Obligations.InterruptIsEnableAndDone := by
  obtain ⟨-, -, -, -, hclear, -⟩ := doneIsSetByCompletionOnly
  refine ⟨fun s => ?_, fun s t h hev => ?_, fun s t v l ha hp h => ?_, fun s rest hturn => ?_⟩
  · rw [State.busPeek_ctrl, State.busPeek_status, State.ctrlWord_bit_zero, State.statusWord_bit_one,
      State.irq]
  · exact State.irq_eq_false_of_done_eq_false (hclear s t h hev)
  · obtain rfl : s.popEvent.accept v = t := by simpa [step_accept ha busTarget_cmd hp] using h
    exact State.irq_eq_false_of_done_eq_false rfl
  · obtain ⟨t, ht, e⟩ := step_enginesTurn_cases hturn
    exact ⟨t, ht, (State.irq_eq_irqEn_of_done (e.done_of_busy hturn.1)).trans e.irqEn_eq⟩

end Sys2Proof.Machine

/-!
PROOFS of the statements about reset and hazards (70_reset_and_hazards.md): a soft reset is a hardware reset, and
what a CTRL write that sets IRQ_EN does with a DONE that is still 1. Setting IRQ_EN makes irq equal to DONE, so
each claim about irq is one about what happened to DONE before.
-/

namespace Sys2Proof.Machine

/-! ### CTRL -/

/-- CTRL.SRST, bit 1, reads 0 (R35). -/
@[simp] theorem State.ctrlWord_bit_one (s : State) : s.ctrlWord[1] = false := by
  simp [State.ctrlWord, placeField]

section

variable {s : State} {l : List Event}

/-- The step of a CTRL write of 1 sets IRQ_EN and nothing else, in either phase (R35). -/
theorem step_setIrqEn (h : s.agenda = .write 0x010#16 1#32 :: l) :
    step s = .next { s with irqEn := true, agenda := l } :=
  ctrlWriteSetsEnableOrResets.1 s 1#32 l h (by decide)

/-- A step followed by a CTRL write of 1 ends with IRQ_EN set, and leaves the rest of the block as the
first step left it (R35). -/
theorem reaches_setIrqEn {u : State} (hu : step s = .next u)
    (h : u.agenda = .write 0x010#16 1#32 :: l) : Reaches 2 s { u with irqEn := true, agenda := l } :=
  ⟨u, hu, _, step_setIrqEn h, rfl⟩

end

/-! ### The statements -/

/-- Settles O2: the CTRL write and the reset input both answer `applyReset` of the state without its event,
and that state is the same for both. -/
theorem softResetIsHardwareReset : Obligations.SoftResetIsHardwareReset := by
  refine ⟨fun s a v l h ha hv => ?_, fun s => ?_⟩
  · have hsoft : Event.resets (.write a v) = true := (Event.resets_iff _).2 (.inr ⟨a, v, rfl, ha, hv⟩)
    rw [step_of_resets h hsoft, step_reset (s := { s with agenda := .reset :: l }) rfl,
      State.popEvent_eq h]
    rfl
  · rw [State.busPeek_ctrl, State.ctrlWord_bit_one]

/-- Settles O35: with IRQ_EN set irq is DONE, which the first write of each order has left 1 or cleared,
and which the completion sets. -/
theorem staleDoneAssertsTheInterruptAtOnce : Obligations.StaleDoneAssertsTheInterruptAtOnce := by
  refine ⟨fun s l h hd => ?_, fun s l h => ?_, fun s w l hp h => ?_⟩
  · exact ⟨_, step_setIrqEn h, State.irq_eq_irqEn_of_done hd⟩
  · have hclear : step s = .next (s.popEvent.writeStatus 2#32) := by
      rw [step_write h, busWrite_of_status busTarget_status]
    exact ⟨_, reaches_setIrqEn (l := l) hclear (by simp [h]),
      State.irq_eq_false_of_done_eq_false (by simp), rfl⟩
  · obtain ⟨-, -, -, hcomplete⟩ := interruptIsEnableAndDone
    have hturn : State.EnginesTurn { s.popEvent.accept w with irqEn := true, agenda := .engine :: l } l :=
      ⟨rfl, .inr (.inl rfl)⟩
    obtain ⟨u, hu, hirq⟩ := hcomplete _ l hturn
    exact ⟨_, u, reaches_setIrqEn (step_accept h busTarget_cmd hp) (by simp [h]),
      State.irq_eq_false_of_done_eq_false rfl, rfl, hu, hirq⟩

end Sys2Proof.Machine

/-!
PROOFS of the statements about the encoding of commands as a whole (30_encoding.md): decode and encode undo each
other, a word has a command exactly when its fields are well formed, and the assembler gives every command its word.
-/

namespace Sys2Proof

/-! ### Decode and encode -/

/-- The fields of every command are well formed (R59). -/
theorem Instr.fields_wf (i : Instr) : i.fields.wf = true :=
  match i with
  | .modred rd a m => (Laws.EncodesItsRow.modred rd a m).1
  | .modmul rd a b m => (Laws.EncodesItsRow.modmul rd a b m).1
  | .montmul rd a b m => (Laws.EncodesItsRow.montmul rd a b m).1
  | .modexp rd base exp m => (Laws.EncodesItsRow.modexp rd base exp m).1
  | .mrwit rd x a => (Laws.EncodesItsRow.mrwit rd x a).1
  | .gcd rd a b => (Laws.EncodesItsRow.gcd rd a b).1
  | .modinv rd a m => (Laws.EncodesItsRow.modinv rd a m).1
  | .crt rd m1 m2 p q qinv => (Laws.EncodesItsRow.crt rd m1 m2 p q qinv).1

/-- The word of a command decodes to it (R59). -/
@[simp] theorem decode_encode (i : Instr) : decode (encode i) = .ok i :=
  decode_eq_ok_iff.2 (fieldsOf_toWord i.fields).symm

/-- A word that decodes to a command is that command's word (R61). -/
theorem encode_eq_of_decode {w : Word} {i : Instr} (h : decode w = .ok i) : encode i = w := by
  rw [encode, decode_eq_ok_iff.1 h, toWord_fieldsOf]

/-- The checks of a command's fields, as propositions (R59, R60). -/
theorem Fields.wf_iff (f : Fields) : f.wf = true ↔
    (1 ≤ f.op.toNat ∧ f.op.toNat ≤ 8) ∧
    (f.rs3 = 0 ∨ ¬ (f.op = 0x01#8 ∨ f.op = 0x05#8 ∨ f.op = 0x06#8 ∨ f.op = 0x07#8)) ∧
    (f.rs4 = 0 ∨ f.op = 0x08#8) ∧ (f.rs5 = 0 ∨ f.op = 0x08#8) := by
  simp [Fields.wf, Fields.opDefined, Fields.rs3Clear, Fields.rs4Clear, Fields.rs5Clear, and_assoc]

/-- Well-formed fields are a command's, which the opcode names (R58, R59). -/
theorem exists_fields_eq_of_wf {f : Fields} (h : f.wf = true) : ∃ i : Instr, i.fields = f := by
  obtain ⟨⟨hpos, hle⟩, h3, h4, h5⟩ := f.wf_iff.1 h
  have hlt : f.op < 0x09#8 := by bv_omega
  obtain hop | hop | hop | hop | hop | hop | hop | hop | hop := opcode_cases hlt <;>
    simp only [hop, BitVec.reduceEq, or_true, or_false, not_true, not_false_eq_true, or_self]
      at hpos h3 h4 h5
  · exact absurd hpos (by decide)
  · exact ⟨.modred _ _ _, Fields.mk_eq_of hop h3 h4 h5⟩
  · exact ⟨.modmul _ _ _ _, Fields.mk_eq_of hop rfl h4 h5⟩
  · exact ⟨.montmul _ _ _ _, Fields.mk_eq_of hop rfl h4 h5⟩
  · exact ⟨.modexp _ _ _ _, Fields.mk_eq_of hop rfl h4 h5⟩
  · exact ⟨.mrwit _ _ _, Fields.mk_eq_of hop h3 h4 h5⟩
  · exact ⟨.gcd _ _ _, Fields.mk_eq_of hop h3 h4 h5⟩
  · exact ⟨.modinv _ _ _, Fields.mk_eq_of hop h3 h4 h5⟩
  · exact ⟨.crt _ _ _ _ _ _, Fields.mk_eq_of hop rfl rfl rfl⟩

/-! ### The assembler -/

/-- The mnemonic and the used fields of a command assemble to it (R62). -/
theorem assembleOp_name_operands (i : Instr) : assembleOp i.name i.operands = some i := by
  cases i <;> rfl

/-! ### The statements -/

/-- Settles O52: a command's word holds the command's fields, which decode to it. -/
theorem decodeOfEncodeIsTheCommand : Obligations.DecodeOfEncodeIsTheCommand :=
  fun i => ⟨decode_encode i, i.fields_wf⟩

/-- Settles O53: a word is its fields, and well-formed fields are a command's. -/
theorem encodeOfDecodeIsTheWord : Obligations.EncodeOfDecodeIsTheWord := by
  refine ⟨fun w i => encode_eq_of_decode, fun w => ⟨fun ⟨i, h⟩ => ?_, fun h => ?_⟩⟩
  · rw [← decode_eq_ok_iff.1 h]
    exact i.fields_wf
  · obtain ⟨i, hi⟩ := exists_fields_eq_of_wf h
    exact ⟨i, decode_eq_ok_iff.2 hi⟩

/-- Settles O55, by evaluation of the five words. -/
theorem encodingExamples : Obligations.EncodingExamples :=
  ⟨by decide, by decide, by decide, by decide, by decide⟩

/-- Settles O56: the assembler answers the command of its mnemonic, and a pseudo-instruction is the command
of its expansion. -/
theorem assemblerGivesTheWord : Obligations.AssemblerGivesTheWord := by
  refine ⟨fun i => ?_, fun rd a m => ⟨rfl, rfl⟩, fun rd a r m => ⟨rfl, rfl⟩, fun v => rfl⟩
  rw [assemble, assembleOp_name_operands, Option.map_some]

end Sys2Proof

/-!
PROOFS of the statements about completions and about the machine as a whole: what a command may raise, what a
completion leaves, the invariant every step keeps, and that no step stops. Each is derived from the cases of a
completion and from the kinds of step.
-/

namespace Sys2Proof.Machine

/-! ### The errors of a command -/

section
variable {c : ErrCode}

/-- A check in front of the rest of a computation adds its own error to those of the rest (R73). -/
theorem mem_cons_of_ite_err {p : Prop} [Decidable p] {e : ErrCode} {r : Result} {l : List ErrCode}
    (h : (if p then .err e else r) = Result.err c) (hr : r = .err c → c ∈ l) : c ∈ e :: l := by
  by_cases hp : p
  · rw [if_pos hp] at h
    cases h
    exact List.mem_cons_self
  · rw [if_neg hp] at h
    exact List.mem_cons_of_mem e (hr h)

/-- The errors a command raises are those of its checks (R93). -/
theorem mem_mayRaise_of_resultOf_err {i : Instr} {s : State} (h : resultOf i s = .err c) :
    c ∈ mayRaise i := by
  cases i with
  | modred => exact mem_cons_of_ite_err h nofun
  | modmul => exact mem_cons_of_ite_err h nofun
  | montmul =>
    exact mem_cons_of_ite_err h fun h => mem_cons_of_ite_err h fun h => mem_cons_of_ite_err h nofun
  | modexp => exact mem_cons_of_ite_err h fun h => mem_cons_of_ite_err h nofun
  | mrwit =>
    refine mem_cons_of_ite_err h fun h => mem_cons_of_ite_err h fun h =>
      mem_cons_of_ite_err h fun hv => ?_
    split at hv <;> cases hv
  | gcd => cases h
  | modinv => exact mem_cons_of_ite_err h fun h => mem_cons_of_ite_err h nofun
  | crt =>
    exact mem_cons_of_ite_err h fun h => mem_cons_of_ite_err h fun h => mem_cons_of_ite_err h nofun

theorem ne_none_of_mem_mayRaise {i : Instr} (h : c ∈ mayRaise i) : c ≠ .none := by
  rintro rfl
  cases i <;> simp [mayRaise] at h

/-- ILLEGAL_CMD is no command's: a word that decodes does not raise it (R60, R93). -/
theorem ne_illegalCmd_of_mem_mayRaise {i : Instr} (h : c ∈ mayRaise i) : c ≠ .illegalCmd := by
  rintro rfl
  cases i <;> simp [mayRaise] at h

/-- A completion ends without error, which a word that decodes alone can, or with an error code, which is
ILLEGAL_CMD exactly for a word that does not decode (R60, R70, R93). -/
theorem EngineEffect.err_cases {s t : State} (h : EngineEffect s t) (hp : s.phase = .busy) :
    (t.err = false ∧ t.ecode = .none ∧ ∃ i, decode s.cmd = .ok i) ∨
      ∃ c, c ≠ .none ∧ t = s.completeErr c ∧ (c = .illegalCmd ↔ ∃ e, decode s.cmd = .error e) := by
  cases h with
  | idle hi => rw [hp] at hi; cases hi
  | ok i _ _ _ hd => exact .inl ⟨rfl, rfl, i, hd⟩
  | err i c _ hd hr =>
    have hc : c ∈ mayRaise i := mem_mayRaise_of_resultOf_err hr
    exact .inr ⟨c, ne_none_of_mem_mayRaise hc, rfl, by simp [hd, ne_illegalCmd_of_mem_mayRaise hc]⟩
  | illegal _ _ hd => exact .inr ⟨.illegalCmd, nofun, rfl, by simp [hd]⟩

theorem ErrCode.bits_le_six (c : ErrCode) : c.bits.toNat ≤ 6 := by
  cases c <;> decide

end

/-! ### STATUS -/

namespace State

variable (s : State)

@[simp] theorem statusWord_bit_two : s.statusWord[2] = s.err := by
  simp [State.statusWord, placeField]

@[simp] theorem statusWord_bit_three : s.statusWord[3] = s.flag := by
  simp [State.statusWord, placeField]

@[simp] theorem statusWord_bit_four : s.statusWord[4] = s.ovr := by
  simp [State.statusWord, placeField]

@[simp] theorem statusWord_bit_five : s.statusWord[5] = s.accv := by
  simp [State.statusWord, placeField]

/-- STATUS.ECODE is bits 11:8 (R28). -/
@[simp] theorem statusWord_ecode : s.statusWord.extractLsb' 8 4 = s.ecode.bits := by
  ext i hi
  interval_cases i <;> simp [State.statusWord, placeField]

@[simp] theorem statusWord_reserved_low : s.statusWord.extractLsb' 6 2 = 0#2 := by
  ext i hi
  interval_cases i <;> simp [State.statusWord, placeField]

@[simp] theorem statusWord_reserved_high : s.statusWord.extractLsb' 12 20 = 0#20 := by
  ext i hi
  interval_cases i <;> simp [State.statusWord, placeField]

end State

/-- A word whose bit 0 is 0 has nothing under the mask of bit 0 (R13). -/
theorem and_one_eq_zero_of_bit_zero {w : Word} (h : w[0] = false) : w &&& 1#32 = 0#32 := by
  ext i hi
  obtain rfl | hi0 := Nat.eq_zero_or_pos i
  · simp [h]
  · simp [BitVec.getElem_one, hi0.ne']

/-! ### What a completion leaves as it was -/

section
variable {i : Instr} {s t : State}

theorem exec_unchanged (h : exec i s = .next t) : Unchanged s t := by
  obtain ⟨v, f, -, rfl⟩ | ⟨c, -, rfl⟩ := exec_cases h <;> exact ⟨rfl, rfl, rfl, rfl, rfl, rfl, rfl⟩

theorem exec_reg_ne (h : exec i s = .next t) {r : RegIdx} (hr : r ≠ i.dest) : t.reg r = s.reg r := by
  obtain ⟨v, f, -, rfl⟩ | ⟨c, -, rfl⟩ := exec_cases h
  · exact s.completeOk_reg_ne hr v f
  · rfl

theorem exec_phase (h : exec i s = .next t) : t.phase = .idle := by
  obtain ⟨v, f, -, rfl⟩ | ⟨c, -, rfl⟩ := exec_cases h <;> rfl

theorem exec_done (h : exec i s = .next t) : t.done = true := by
  obtain ⟨v, f, -, rfl⟩ | ⟨c, -, rfl⟩ := exec_cases h <;> rfl

/-- After a completion an address other than STATUS reads as it would have before, had the block been IDLE,
if the register whose window it is in, if any, is as it was (R49, R70). -/
theorem Unchanged.busPeek_eq {a : Addr} (h : Unchanged s t) (hp : t.phase = .idle)
    (hstatus : busTarget a ≠ .status)
    (hreg : ∀ r k, busTarget a = .window r k → t.reg r = s.reg r) :
    t.busPeek a = State.busPeek { s with phase := .idle } a := by
  cases ha : busTarget a with
  | status => exact absurd ha hstatus
  | window r k =>
    rw [busPeek_window_idle ha hp, busPeek_window_idle (s := { s with phase := .idle }) ha rfl,
      hreg r k ha, h.params]
    rfl
  | id | param | cmd | ctrl | reserved =>
    simp [State.busPeek, State.readValue, ha, State.paramWord, State.ctrlWord, h.params, h.cmd,
      h.irqEn]

end

/-! ### What a command's outcome depends on -/

/-- What a command computes depends on the registers and W alone (R69). -/
theorem resultOf_congr {s s' : State} (hr : s.regs = s'.regs)
    (hw : s.params.words = s'.params.words) (i : Instr) : resultOf i s = resultOf i s' := by
  have hx (r : RegIdx) : s.x r = s'.x r := by rw [State.x, State.reg, hr, State.x, State.reg]
  have hwidth : s.params.width = s'.params.width := congrArg (32 * ·) hw
  cases i <;> simp only [resultOf, hx, hwidth]

/-! ### The registers stay W bits wide -/

theorem EngineEffect.wellSized {s t : State} (h : EngineEffect s t) (hs : s.WellSized) :
    t.WellSized := by
  cases h with
  | ok => exact hs.setReg (operandOfNat_length _ _)
  | idle | err | illegal => exact hs

theorem WriteEffect.wellSized {s t : State} {a : Addr} {v : Word} (h : WriteEffect s a v t)
    (hs : s.WellSized) : t.WellSized := by
  cases h with
  | softReset => exact fun r => by simp
  | window r => exact hs.setReg ((operandSetWord_length _ _ _).trans (hs r))
  | ignored | accepted | dropped | status | irqEn | refused => exact hs

/-- Every step keeps the registers W bits wide (R21). -/
theorem step_wellSized {s t : State} (h : step s = .next t) (hs : s.WellSized) : t.WellSized := by
  cases step_inv h with
  | turn _ e => exact e.wellSized hs
  | engine _ _ e => exact e.wellSized (s := s.popEvent) hs
  | write _ _ _ _ e => exact e.wellSized (s := s.popEvent) hs
  | reset => exact fun r => by simp
  | irq => exact hs
  | read a =>
    obtain ⟨hparams, hregs, -⟩ := busRead_frame s.popEvent a
    intro r
    rw [State.reg, hregs, hparams]
    exact hs r

/-! ### The invariant -/

/-- A reset establishes the invariant from every state (R36). -/
theorem State.applyReset_inv (s : State) : s.applyReset.Inv where
  sized := fun r => by simp
  busy_clear := nofun
  err_iff := by simp
  flag_no_err := nofun
  flag_mrwit := nofun

/-- A completion establishes the invariant, but for the width of the registers, which it keeps (R70). -/
theorem EngineEffect.inv_of_busy {s t : State} (h : EngineEffect s t) (hp : s.phase = .busy)
    (hs : s.WellSized) : t.Inv := by
  have hsized : t.WellSized := h.wellSized hs
  cases h with
  | idle hi => rw [hp] at hi; cases hi
  | ok i v f _ hd hr =>
    refine ⟨hsized, nofun, by simp, fun _ => rfl, fun hf => ?_⟩
    obtain rfl : f = true := hf
    obtain ⟨rd, x, a, rfl⟩ := resultOf_flag hr
    exact ⟨rd, x, a, hd⟩
  | err i c _ _ hr =>
    have hc : c ≠ .none := ne_none_of_mem_mayRaise (mem_mayRaise_of_resultOf_err hr)
    exact ⟨hsized, nofun, by simpa using hc, nofun, nofun⟩
  | illegal => exact ⟨hsized, nofun, by simp, nofun, nofun⟩

/-- A STATUS write keeps the invariant: it clears ERR and ECODE together (R31). -/
theorem State.Inv.writeStatus {s : State} (h : s.Inv) (v : Word) : (s.writeStatus v).Inv where
  sized := h.sized
  busy_clear hp := by
    obtain ⟨hdone, herr, hflag⟩ := h.busy_clear hp
    simp [hdone, herr, hflag]
  err_iff := by
    by_cases hv : v[2] = true
    · simp [hv]
    · simpa [hv] using h.err_iff
  flag_no_err hf := by simp [h.flag_no_err hf]
  flag_mrwit := h.flag_mrwit

/-! ### The statements -/

/-- Settles O57, by the kinds of step: a completion, an acceptance and a reset establish the invariant, a
STATUS write keeps it, and any other step leaves what it speaks of. -/
theorem everyStepKeepsTheInvariant : Obligations.EveryStepKeepsTheInvariant := by
  intro s t hs h
  have hsized : t.WellSized := step_wellSized h hs.sized
  cases step_kind h with
  | completion rest hturn e =>
    exact e.inv_of_busy (s := { s with agenda := rest }) hturn.1 hs.sized
  | issue _ w _ _ _ _ e =>
    subst e
    exact ⟨hsized, fun _ => ⟨rfl, rfl, rfl⟩, by simp, nofun, nofun⟩
  | reset _ _ _ _ e =>
    rw [e]
    exact State.applyReset_inv _
  | statusWrite _ v _ _ _ e =>
    have hpop : s.popEvent.Inv := ⟨hs.sized, hs.busy_clear, hs.err_iff, hs.flag_no_err, hs.flag_mrwit⟩
    rw [e]
    exact hpop.writeStatus v
  | quiet hphase hcmd hdone herr hecode hflag =>
    constructor
    case sized => exact hsized
    case busy_clear => rw [hphase, hdone, herr, hflag]; exact hs.busy_clear
    case err_iff => rw [herr, hecode]; exact hs.err_iff
    case flag_no_err => rw [hflag, herr]; exact hs.flag_no_err
    case flag_mrwit => rw [hflag, hcmd]; exact hs.flag_mrwit

/-- Settles O58: the state after reset of a configuration is a reset state. -/
theorem resetMeetsTheInvariant : Obligations.ResetMeetsTheInvariant := by
  have hinv (p : Params) : (State.resetOf p).Inv := by
    rw [← State.applyReset_resetOf]
    exact State.applyReset_inv _
  exact ⟨hinv Config.reference, hinv⟩

/-- Settles O36: while BUSY the invariant has DONE 0, so irq is deasserted. -/
theorem interruptOnlyWhileIdle : Obligations.InterruptOnlyWhileIdle := by
  intro s hs hirq
  rw [State.busPeek_status]
  apply and_one_eq_zero_of_bit_zero
  rw [State.statusWord_bit_zero, State.busy_eq_false_iff]
  obtain hp | hp := s.phase_idle_or_busy
  · exact hp
  · rw [State.irq_eq_false_of_done_eq_false (hs.busy_clear hp).1] at hirq
    cases hirq

/-- Settles O59: every step is one of its cases, and every command completes with what it computes. -/
theorem theMachineNeverStops : Obligations.TheMachineNeverStops :=
  ⟨fun s => (step_cases s).imp fun _ h => h.1, fun i s => ⟨_, exec_eq_complete i s⟩⟩

/-- Settles O60: both completions leave the other registers and all that a bus read of another address
shows. -/
theorem completionFrame : Obligations.CompletionFrame := by
  intro i s t h
  refine ⟨fun r => exec_reg_ne h, exec_unchanged h, exec_phase h, exec_done h,
    fun a hstatus hwindow => (exec_unchanged h).busPeek_eq (exec_phase h) hstatus fun r k ha => ?_⟩
  refine exec_reg_ne h ?_
  rintro rfl
  exact hwindow k ha

/-- Settles O23: on the engine's turn the step is the engine's, which runs the command. -/
theorem aStepRunsTheDecodedCommand : Obligations.AStepRunsTheDecodedCommand := by
  intro s rest i hturn hd
  rw [step_enginesTurn hturn]
  exact engineTurn_ok (s := { s with agenda := rest }) hturn.1 hd

/-- Settles O26: a command is its result completed, and the result depends on the registers and W alone. -/
theorem outcomeDependsOnOperandsAndWidthOnly : Obligations.OutcomeDependsOnOperandsAndWidthOnly := by
  intro i s s' t t' hr hw h h'
  rw [exec_eq_complete] at h h'
  cases h
  cases h'
  rw [resultOf_congr hr hw]
  cases resultOf i s' with
  | ok v f => simp [hr, hw]
  | err c => simp [hr]

/-- Settles O32: a command raises the errors of its own checks, and only a word that does not decode
raises ILLEGAL_CMD. -/
theorem eachCommandRaisesItsOwnErrorsOnly : Obligations.EachCommandRaisesItsOwnErrorsOnly := by
  refine ⟨fun i s t h => ?_, fun s rest t hturn h => ?_, fun s => ?_, rfl⟩
  · obtain ⟨v, f, -, rfl⟩ | ⟨c, hr, rfl⟩ := exec_cases h
    · exact .inl ⟨rfl, rfl⟩
    · exact .inr ⟨rfl, mem_mayRaise_of_resultOf_err hr⟩
  · obtain ⟨-, hecode, hd⟩ | ⟨c, -, rfl, hc⟩ := (step_enginesTurn_inv hturn h).err_cases hturn.1
    · simp [decode_error_iff_not_ok, show ∃ i, decode s.cmd = .ok i from hd, hecode]
    · exact hc.symm
  · rw [State.busPeek_status, State.statusWord_ecode]
    exact s.ecode.bits_le_six

/-- Settles O33: an error completes through `completeErr`, and by the kinds of step only an acceptance and a
reset change CMD. -/
theorem errorsArePrecise : Obligations.ErrorsArePrecise := by
  refine ⟨fun i s t h herr => ?_, fun s rest t hturn h herr => ?_, fun s t h hne => ?_⟩
  · obtain ⟨v, f, -, rfl⟩ | ⟨c, hr, rfl⟩ := exec_cases h
    · cases herr
    · exact ⟨ne_none_of_mem_mayRaise (mem_mayRaise_of_resultOf_err hr), rfl, rfl, rfl, rfl⟩
  · obtain ⟨hok, -⟩ | ⟨c, hc, rfl, -⟩ := (step_enginesTurn_inv hturn h).err_cases hturn.1
    · rw [hok] at herr; cases herr
    · exact ⟨hc, rfl, rfl, rfl, rfl⟩
  · cases step_kind h with
    | completion _ _ e => exact absurd (by cases e <;> rfl) hne
    | issue _ _ _ _ _ hp e => exact .inl ⟨hp, by rw [e, State.accept_phase]⟩
    | reset e l ha he => exact .inr ⟨e, l, ha, he⟩
    | statusWrite _ _ _ _ _ e => exact absurd (by rw [e]; rfl) hne
    | quiet _ hcmd => exact absurd hcmd hne

end Sys2Proof.Machine

/-!
PROOFS of the further statements about STATUS, reset and the host's accesses (10_state.md, 20_memory.md,
40_command_execution.md, 70_reset_and_hazards.md): the sticky bits OVR and ACCV, ERR with ECODE, what is frozen while
BUSY, that a command completes, and the host pseudo-instructions as runs of steps.
-/

namespace Sys2Proof.Machine

/-! ### What a bus access leaves -/

theorem WriteEffect.agenda_eq {s t : State} {a : Addr} {v : Word} (h : WriteEffect s a v t) :
    t.agenda = s.agenda := by
  cases h <;> rfl

/-- A write while BUSY that leaves the block BUSY changes no register and not CMD (R22, R42, R68). -/
theorem WriteEffect.frozen_of_busy {s t : State} {a : Addr} {v : Word} (h : WriteEffect s a v t)
    (hs : s.phase = .busy) (ht : t.phase = .busy) : t.regs = s.regs ∧ t.cmd = s.cmd := by
  cases h with
  | ignored | dropped | status | irqEn | refused => exact ⟨rfl, rfl⟩
  | softReset => cases ht
  | accepted _ hp => rw [hs] at hp; cases hp
  | window _ _ _ hp => rw [hs] at hp; cases hp

theorem busPeek_window_busy {s : State} {a : Addr} {r : RegIdx} {k : Nat}
    (h : busTarget a = .window r k) (hp : s.phase = .busy) : s.busPeek a = 0#32 := by
  simp [State.busPeek, State.readValue, h, State.busy, hp]

/-- A read of an address outside the windows has no side effect (R46). -/
theorem busRead_of_not_window {s : State} {a : Addr} (h : ¬ ∃ r k, busTarget a = .window r k) :
    s.busRead a = { s with reads := s.busPeek a :: s.reads } := by
  obtain ⟨-, hw, -⟩ | hr := busRead_cases s a
  · exact absurd hw h
  · exact hr

/-! ### The sticky bits -/

/-- What a step does to OVR and ACCV, by its cause (R33, R34). -/
inductive StickyKind (s t : State) : Prop where
  /-- A CMD write dropped while BUSY sets OVR (R68). -/
  | overrun (a : Addr) (v : Word) (l : List Event) : s.agenda = .write a v :: l →
      busTarget a = .cmd → s.phase = .busy → t.ovr = true → t.accv = s.accv → StickyKind s t
  /-- A window access while BUSY sets ACCV (R34). -/
  | violation : t.ovr = s.ovr → t.accv = true → StickyKind s t
  /-- A STATUS write (R28). -/
  | statusWrite (a : Addr) (v : Word) (l : List Event) : s.agenda = .write a v :: l →
      busTarget a = .status → t = s.popEvent.writeStatus v → StickyKind s t
  /-- The reset input or a soft reset (R108, R109). -/
  | reset (e : Event) (l : List Event) : s.agenda = e :: l → e.resets = true →
      t = s.popEvent.applyReset → StickyKind s t
  /-- Any other step leaves both. -/
  | quiet : t.ovr = s.ovr → t.accv = s.accv → StickyKind s t

theorem StickyKind.of_writeEffect {s t : State} {a : Addr} {v : Word} {l : List Event}
    (h : s.agenda = .write a v :: l) (e : WriteEffect s.popEvent a v t) : StickyKind s t := by
  cases e with
  | dropped ha hp => exact .overrun a v l h ha hp rfl rfl
  | refused => exact .violation rfl rfl
  | status ha => exact .statusWrite a v l h ha rfl
  | softReset ha hv => exact .reset _ l h ((Event.resets_iff _).2 (.inr ⟨a, v, rfl, ha, hv⟩)) rfl
  | ignored | accepted | irqEn | window => exact .quiet rfl rfl

theorem EngineEffect.sticky_eq {s t : State} (h : EngineEffect s t) :
    t.ovr = s.ovr ∧ t.accv = s.accv := by
  cases h <;> exact ⟨rfl, rfl⟩

/-- Every step is of one of the kinds. -/
theorem step_stickyKind {s t : State} (h : step s = .next t) : StickyKind s t := by
  cases step_inv h with
  | turn _ e => exact .quiet e.sticky_eq.1 e.sticky_eq.2
  | engine _ _ e => exact .quiet e.sticky_eq.1 e.sticky_eq.2
  | write a v l ha e => exact .of_writeEffect ha e
  | reset l ha => exact .reset .reset l ha rfl rfl
  | irq => exact .quiet rfl rfl
  | read a =>
    obtain ⟨-, -, hr⟩ | hr := busRead_cases s.popEvent a <;> rw [hr]
    · exact .violation rfl rfl
    · exact .quiet rfl rfl

/-- What a step answers whose event clears bit `j` of STATUS or resets the block (R28, R36). -/
theorem eq_of_clears_or_resets {s t : State} {e : Event} {l : List Event} {j : Nat}
    (h : step s = .next t) (ha : s.agenda = e :: l)
    (he : e.clearsStatusBit j = true ∨ e.resets = true) :
    (∃ v : Word, v.getLsbD j = true ∧ t = s.popEvent.writeStatus v) ∨ t = s.popEvent.applyReset := by
  obtain he | he := he
  · obtain ⟨v, hv, hstep⟩ := step_of_clearsStatusBit ha he
    exact .inl ⟨v, hv, by simpa [hstep, eq_comm] using h⟩
  · exact .inr (eq_applyReset_of_resets ha he h)

/-! ### Runs of steps -/

theorem reaches_one {s t : State} (h : step s = .next t) : Reaches 1 s t := ⟨t, h, rfl⟩

/-- Unless it ends IDLE, a step uses up the first event of the agenda (R66, R71). -/
theorem step_phase_idle_or_agenda {s t : State} (h : step s = .next t) :
    t.phase = .idle ∨ ∃ e, s.agenda = e :: t.agenda := by
  cases step_inv h with
  | turn _ e => exact .inl e.phase_idle
  | engine _ _ e => exact .inl e.phase_idle
  | reset => exact .inl rfl
  | irq l ha => exact .inr ⟨.waitIrq, by simp [ha]⟩
  | write a v l ha e => exact .inr ⟨_, by rw [e.agenda_eq, State.popEvent_agenda, ha, List.tail_cons]⟩
  | read a l ha =>
    obtain ⟨-, -, -, -, -, -, -, -, -, -, hagenda, -⟩ := busRead_frame s.popEvent a
    rw [hagenda, State.popEvent_agenda]
    obtain ha | ⟨ha, -, -⟩ := ha <;> exact .inr ⟨_, by rw [ha, List.tail_cons]⟩

/-- From every state an IDLE one is reached within one step more than the agenda is long (R71). -/
theorem exists_reaches_idle (l : List Event) {s : State} (h : s.agenda = l) :
    ∃ n t, n ≤ l.length + 1 ∧ Reaches n s t ∧ t.phase = .idle := by
  induction l generalizing s with
  | nil =>
    obtain ⟨t, ht, -⟩ := step_cases s
    obtain hi | ⟨e, ha⟩ := step_phase_idle_or_agenda ht
    · exact ⟨1, t, by simp, reaches_one ht, hi⟩
    · rw [h] at ha; cases ha
  | cons e l ih =>
    obtain ⟨t, ht, -⟩ := step_cases s
    obtain hi | ⟨e', ha⟩ := step_phase_idle_or_agenda ht
    · exact ⟨1, t, by simp, reaches_one ht, hi⟩
    · rw [h] at ha
      obtain ⟨n, u, hn, hu, hi⟩ := ih (List.cons.inj ha).2.symm
      exact ⟨n + 1, u, by simpa using hn, ⟨t, ht, hu⟩, hi⟩

/-- While IDLE reads change nothing but the words read (R46). -/
theorem reaches_reads (as : List Addr) {s : State} {l : List Event} (hp : s.phase = .idle)
    (h : s.agenda = as.map .read ++ l) : Reaches as.length s
      { s with agenda := l, reads := (as.map s.busPeek).reverse ++ s.reads } := by
  induction as generalizing s with
  | nil =>
    obtain rfl : s.agenda = l := by simpa using h
    rfl
  | cons a as ih =>
    refine ⟨_, step_read_idle h hp, ?_⟩
    have hpeek : State.busPeek { s with agenda := as.map .read ++ l, reads := s.busPeek a :: s.reads } =
        s.busPeek := rfl
    simpa [hpeek] using
      ih (s := { s with agenda := as.map .read ++ l, reads := s.busPeek a :: s.reads }) hp rfl

@[simp] theorem State.setReg_setReg (s : State) (r : RegIdx) (v v' : Operand) :
    (s.setReg r v).setReg r v' = s.setReg r v' := by
  simp [State.setReg]

@[simp] theorem State.setReg_reg_self (s : State) (r : RegIdx) : s.setReg r (s.reg r) = s := by
  simp [State.setReg, State.reg]

/-- Words written one after the other replace the words from the first one's place on (R42). -/
theorem take_append_drop_operandSetWord {x : Operand} {k : Nat} (hk : k < x.length) (w : Word)
    (ws : List Word) :
    (operandSetWord x k w).take (k + 1) ++ ws ++ (operandSetWord x k w).drop (k + 1 + ws.length) =
      x.take k ++ (w :: ws) ++ x.drop (k + (w :: ws).length) := by
  have htake : (operandSetWord x k w).take (k + 1) = x.take k ++ [w] := by
    rw [List.take_add_one, operandSetWord, List.take_set_of_le le_rfl]
    simp [hk]
  have hdrop : (operandSetWord x k w).drop (k + 1 + ws.length) = x.drop (k + (w :: ws).length) := by
    rw [operandSetWord, List.drop_set_of_lt (by omega), List.length_cons, Nat.add_right_comm, Nat.add_assoc]
  simp [htake, hdrop]

/-- While IDLE window writes to consecutive words of a register leave them there, and change nothing else
(R42, R64). -/
theorem reaches_writesFrom (r : RegIdx) (ws : List Word) {s : State} {k : Nat} {l : List Event}
    (hp : s.phase = .idle) (hlen : (s.reg r).length = s.params.words)
    (hk : k + ws.length ≤ s.params.words) (h : s.agenda = writesFrom r k ws ++ l) :
    Reaches ws.length s { s.setReg r
      ((s.reg r).take k ++ ws ++ (s.reg r).drop (k + ws.length)) with agenda := l } := by
  induction ws generalizing s k with
  | nil =>
    obtain rfl : s.agenda = l := h
    simp [Reaches]
  | cons w ws ih =>
    have hwords := s.params.words_le
    rw [List.length_cons] at hk
    have hlt : k < s.params.words := by omega
    have hstep := step_write_window_idle h (busTarget_windowAddr r (by omega)) hp
    rw [if_pos hlt] at hstep
    refine ⟨_, hstep, ?_⟩
    have hrun := ih (k := k + 1)
      (s := State.setReg { s with agenda := writesFrom r (k + 1) ws ++ l } r
        (operandSetWord (s.reg r) k w)) hp (by simpa using hlen) (by simp; omega) rfl
    rw [State.setReg_reg_same, State.setReg_setReg,
      take_append_drop_operandSetWord (by rwa [hlen])] at hrun
    exact hrun

/-- While IDLE the windows show every word of a register (R40, R64). -/
theorem map_busPeek_window {s : State} (hp : s.phase = .idle) {r : RegIdx}
    (hlen : (s.reg r).length = s.params.words) :
    (List.range s.params.words).map (fun k => s.busPeek (windowAddr r k)) = s.reg r := by
  refine List.ext_getElem (by simp [hlen]) fun k hk hk' => ?_
  have hwords := s.params.words_le
  have hlt : k < s.params.words := by simpa using hk
  rw [List.getElem_map, List.getElem_range,
    busPeek_window_idle (busTarget_windowAddr r (by omega)) hp, if_pos hlt]
  simp [operandWord, hk']

/-! ### The statements -/

/-- Settles O3: after the reset the block is IDLE, where the engine's turn does nothing. -/
theorem resetAbandonsTheCommand : Obligations.ResetAbandonsTheCommand := by
  intro s l _ h
  have hreset : step s = .next (State.applyReset { s with agenda := .engine :: l }) := by
    rw [step_reset h, State.popEvent_eq h]
  have hturn : step (State.applyReset { s with agenda := .engine :: l }) =
      .next (State.applyReset { s with agenda := .engine :: l }).popEvent := by
    rw [step_engine rfl, engineTurn_idle rfl]
  exact ⟨_, ⟨_, hreset, _, hturn, rfl⟩, rfl, fun r => by simp [State.x], rfl, rfl, rfl⟩

/-- Settles O6, by the kinds of step. -/
theorem errAndEcodeRecordTheLastCompletion : Obligations.ErrAndEcodeRecordTheLastCompletion := by
  refine ⟨fun s rest hturn => ?_, fun s w l h hp => ⟨_, step_accept h busTarget_cmd hp, rfl, rfl⟩,
    fun s t h ⟨e, l, ha, he⟩ => ?_, fun s t h hne => ?_⟩
  · obtain ⟨t, ht, e⟩ := step_enginesTurn_cases hturn
    obtain ⟨herr, hecode, -⟩ | ⟨c, hc, rfl, -⟩ := e.err_cases hturn.1
    · exact ⟨t, ht, .inl ⟨herr, hecode⟩⟩
    · exact ⟨_, ht, .inr ⟨rfl, hc⟩⟩
  · obtain ⟨v, hv, rfl⟩ | rfl := eq_of_clears_or_resets h ha he
    · have hv2 : v[2] = true := hv
      simp [hv2]
    · exact ⟨rfl, rfl⟩
  · cases step_kind h with
    | completion _ hturn e => exact .inl ⟨hturn.1, e.phase_idle⟩
    | issue _ _ _ _ _ hp e => exact .inr (.inl ⟨hp, by rw [e, State.accept_phase]⟩)
    | reset e l ha he => exact .inr (.inr ⟨e, l, ha, .inr he⟩)
    | quiet _ _ _ herr hecode => simp [herr, hecode] at hne
    | statusWrite a v l ha hst e =>
      have hv : v.getLsbD 2 = true := by
        by_contra hv
        have hv2 : v[2] = false := by simpa using hv
        simp [e, hv2] at hne
      exact .inr (.inr ⟨_, l, ha, .inl ((Event.clearsStatusBit_iff 2 _).2 ⟨a, v, rfl, hst, hv⟩)⟩)

/-- Settles O7: the fields are read off STATUS's word, and a STATUS write is `writeStatus`. -/
theorem statusFieldsAndWriteOneToClear : Obligations.StatusFieldsAndWriteOneToClear := by
  refine ⟨fun s => by simp, fun s v l h => ?_, fun p => ?_⟩
  · refine ⟨s.popEvent.writeStatus v, by rw [step_write h, busWrite_of_status busTarget_status], ?_⟩
    simp [h]
  · rw [← State.applyReset_resetOf, State.busPeek_status, State.applyReset_statusWord]

/-- Settles O11, by what steps do to the sticky bits. -/
theorem overrunIsSetByADroppedCommandAndSticky :
    Obligations.OverrunIsSetByADroppedCommandAndSticky := by
  refine ⟨fun s a v l h ha hp => ?_, fun s t h hs ht => ?_, fun s t h hs ht => ?_,
    fun s t h ⟨e, l, ha, he⟩ => ?_⟩
  · rw [step_overrun h ha hp, State.popEvent_eq h]
    rfl
  · cases step_stickyKind h with
    | overrun a v l ha hcmd hp => exact ⟨hp, a, v, l, ha, hcmd⟩
    | statusWrite _ _ _ _ _ e | reset _ _ _ _ e => simp [e, hs] at ht
    | violation hovr | quiet hovr => simp [hovr, hs] at ht
  · cases step_stickyKind h with
    | reset e l ha he => exact ⟨e, l, ha, .inr he⟩
    | statusWrite a v l ha hst e =>
      have hv : v.getLsbD 4 = true := by simpa [e, hs] using ht
      exact ⟨_, l, ha, .inl ((Event.clearsStatusBit_iff 4 _).2 ⟨a, v, rfl, hst, hv⟩)⟩
    | overrun _ _ _ _ _ _ hovr | violation hovr | quiet hovr => simp [hovr, hs] at ht
  · obtain ⟨v, hv, rfl⟩ | rfl := eq_of_clears_or_resets h ha he
    · have hv4 : v[4] = true := hv
      simp [hv4]
    · rfl

/-- Settles O12: the addresses are those that name a window word; the rest is by what steps do to the
sticky bits. -/
theorem windowAccessWhileBusyIsRefused : Obligations.WindowAccessWhileBusyIsRefused := by
  refine ⟨fun s a l hp hlo hhi => ?_, fun s t h hs ht => ?_, fun s t h ⟨e, l, ha, he⟩ => ?_⟩
  · obtain ⟨r, k, ht⟩ := (busTarget_window_iff a).2 ⟨hlo, hhi⟩
    exact ⟨fun h => step_read_window_busy h ht hp, fun v h => step_write_window_busy h ht hp⟩
  · cases step_stickyKind h with
    | reset e l ha he => exact ⟨e, l, ha, .inr he⟩
    | statusWrite a v l ha hst e =>
      have hv : v.getLsbD 5 = true := by simpa [e, hs] using ht
      exact ⟨_, l, ha, .inl ((Event.clearsStatusBit_iff 5 _).2 ⟨a, v, rfl, hst, hv⟩)⟩
    | overrun _ _ _ _ _ _ _ haccv | violation _ haccv | quiet _ haccv => simp [haccv, hs] at ht
  · obtain ⟨v, hv, rfl⟩ | rfl := eq_of_clears_or_resets h ha he
    · have hv5 : v[5] = true := hv
      simp [hv5]
    · rfl

/-- Settles O15: a window read while BUSY is refused, and every other read only returns its word. -/
theorem onlyABusyWindowReadHasASideEffect : Obligations.OnlyABusyWindowReadHasASideEffect := by
  intro s a l h
  by_cases hw : 0x1000 ≤ a.toNat ∧ a.toNat < 0x5000
  · obtain ⟨r, k, ht⟩ := (busTarget_window_iff a).2 hw
    obtain hp | hp := s.phase_idle_or_busy
    · rw [step_read_idle h hp]
      simp [State.busy, hp]
    · rw [step_read_window_busy h ht hp, busPeek_window_busy ht hp]
      simp [State.busy, hp, hw]
  · have ht : ¬ ∃ r k, busTarget a = .window r k := mt (busTarget_window_iff a).1 hw
    have hpeek : State.busPeek { s with agenda := l } a = s.busPeek a := rfl
    rw [step_read_eq h, busRead_of_not_window ht, hpeek]
    simp [hw]

/-- Settles O19: the W/32 writes replace the register's words one by one. -/
theorem setxLoadsTheRegister : Obligations.SetxLoadsTheRegister := by
  intro s r n l hs hp hn h
  have hlen : (s.reg r).length = s.params.words := hs r
  have hrun := reaches_writesFrom r (operandOfNat s.params.words n) hp hlen (k := 0) (by simp) h
  rw [Params.width_div_32]
  rw [operandOfNat_length, List.take_zero, List.nil_append, Nat.zero_add, ← hlen, List.drop_length,
    List.append_nil, hlen] at hrun
  refine ⟨_, hrun, ?_, fun r' hr => State.setReg_reg_ne s hr _, rfl⟩
  rw [State.x]
  exact (congrArg operandValue (State.setReg_reg_same s r _)).trans (operandValue_operandOfNat_of_lt hn)

/-- Settles O20: the W/32 reads return the register's words, word 0 first. -/
theorem getxReadsTheRegister : Obligations.GetxReadsTheRegister := by
  intro s r l hs hp h
  have hmap : getx s.params r = ((List.range s.params.words).map (windowAddr r)).map .read := by
    simp [getx]
  rw [hmap] at h
  have hrun := reaches_reads _ hp h
  rw [List.map_map, List.length_map, List.length_range] at hrun
  have hwords : (List.range s.params.words).map (s.busPeek ∘ windowAddr r) = s.reg r :=
    map_busPeek_window hp (hs r)
  rw [hwords] at hrun
  rw [Params.width_div_32]
  exact ⟨_, s.reg r, hrun, hs r, rfl, rfl⟩

/-- Settles O25: while BUSY no access changes a register or CMD, and a completion and a reset leave the
phase IDLE. -/
theorem operandsAreFrozenWhileBusy : Obligations.OperandsAreFrozenWhileBusy := by
  intro s t h hs ht
  cases step_inv h with
  | turn _ e => rw [e.phase_idle] at ht; cases ht
  | engine _ _ e => rw [e.phase_idle] at ht; cases ht
  | reset => cases ht
  | irq => exact ⟨rfl, rfl⟩
  | write _ _ _ _ e => exact e.frozen_of_busy hs ht
  | read a =>
    obtain ⟨-, hregs, -, hcmd, -⟩ := busRead_frame s.popEvent a
    exact ⟨hregs, hcmd⟩

/-- Settles O27: every step that leaves the block BUSY uses up an event. -/
theorem everyAcceptedCommandCompletes : Obligations.EveryAcceptedCommandCompletes :=
  fun _ _ => exists_reaches_idle _ rfl

/-- Settles O28: the CMD write is accepted, the wait leaves the turn to the engine, and then reads STATUS. -/
theorem runIssuesCompletesAndReturnsStatus : Obligations.RunIssuesCompletesAndReturnsStatus := by
  intro s i l hp h
  have hagenda : s.agenda = .write 0x008#16 (encode i) :: .waitIdle :: l := h
  have hissue := step_accept hagenda busTarget_cmd hp
  rw [State.popEvent_eq hagenda] at hissue
  obtain ⟨u, hexec⟩ : ∃ u, exec i (State.accept { s with agenda := .waitIdle :: l } (encode i)) = .next u :=
    ⟨_, exec_eq_complete _ _⟩
  have hturn : step (State.accept { s with agenda := .waitIdle :: l } (encode i)) = .next u := by
    rw [step_waitIdle_busy rfl rfl, engineTurn_ok rfl (decode_encode i), hexec]
  have hu := exec_unchanged hexec
  have hidle : u.phase = .idle := exec_phase hexec
  have hpoll : step u = .next { u with agenda := l, reads := u.busPeek 0x00C#16 :: s.reads } := by
    have hua : u.agenda = .waitIdle :: l := hu.agenda
    have hur : u.reads = s.reads := hu.reads
    rw [step_waitIdle_idle hua hidle, State.popEvent_eq hua,
      busRead_idle (s := { u with agenda := l }) hidle, ← hur]
    rfl
  refine ⟨u, _, hexec, ⟨_, hissue, u, hturn, _, hpoll, rfl⟩, rfl, ?_, hu.cmd⟩
  simp [hidle]

end Sys2Proof.Machine

/-!
PROOFS of the further statements about the arithmetic of the commands (41_modmul.md to 45_crt.md): the order of the
modulus errors, the methods a block may use inside for MODEXP and MONTMUL, and what the commands give on the numbers
of a key. A method is followed through its loop by an equation for the accumulator; a result is then fixed by the
congruences it has and the bound below its modulus.
-/

namespace Sys2Proof.Machine

/-! ### The errors of a modulus -/

section
variable {i : Instr} {m : RegIdx} {s : State}

/-- The first check of every command with a modulus is that it is not 0 (R73). -/
theorem resultOf_zeroModulus (hm : i.modulus = some m) (h0 : s.x m = 0) :
    resultOf i s = .err .zeroModulus := by
  cases i <;> cases hm <;> exact if_pos h0

/-- The second check of every command that needs an odd modulus is that it is not even (R73). -/
theorem resultOf_evenModulus (hm : i.modulus = some m) (hodd : i.needsOdd = true) (h0 : s.x m ≠ 0)
    (he : s.x m % 2 = 0) : resultOf i s = .err .evenModulus := by
  cases i with
  | montmul => cases hm; exact montmulResult_even h0 he
  | modexp => cases hm; exact modexpResult_even h0 he
  | mrwit => cases hm; exact mrwitResult_even h0 he
  | modred | modmul | gcd | modinv | crt => cases hodd

end

/-! ### Exponentiation in the Montgomery domain -/

namespace Arith

section
variable {w a b m : Nat}

/-- The Montgomery product of two numbers in the domain is their product in the domain (R78). -/
theorem montmul_in_domain (ho : m % 2 = 1) :
    montmul w (a * 2 ^ w % m) (b * 2 ^ w % m) m = a * b * 2 ^ w % m :=
  (montmul_unique ho (Nat.mod_lt _ (by omega)) (mul_in_domain_modEq w a b m)).symm

/-- The Montgomery product with rr enters the domain (R78). -/
theorem montmul_rr (ho : m % 2 = 1) : montmul w a (2 ^ (2 * w) % m) m = a * 2 ^ w % m :=
  (montmul_unique ho (Nat.mod_lt _ (by omega)) (enter_domain_modEq w a m)).symm

/-- The Montgomery product with 1 leaves the domain (R78). -/
theorem montmul_one (ho : m % 2 = 1) : montmul w (a * 2 ^ w % m) 1 m = a % m := by
  refine (montmul_unique ho (Nat.mod_lt _ (by omega)) ?_).symm
  calc a % m * 2 ^ w ≡ a * 2 ^ w [MOD m] := (Nat.mod_modEq _ _).mul_right _
    _ ≡ a * 2 ^ w % m [MOD m] := (Nat.mod_modEq _ _).symm
    _ = a * 2 ^ w % m * 1 := (mul_one _).symm

end

end Arith

namespace Reference

section
variable {w g e m : Nat}

/-- The exponent's low n + 1 bits are its low n bits and bit n. -/
theorem mod_two_pow_succ_eq (e n : Nat) :
    e % 2 ^ (n + 1) = e % 2 ^ n + 2 ^ n * (e.testBit n).toNat := by
  rw [pow_succ, Nat.mod_mul, Nat.toNat_testBit]

/-- The loop over the low n bits of the exponent, on an accumulator in the domain (R81). -/
theorem montExpLoop_eq (ho : m % 2 = 1) (n acc : Nat) :
    montExpLoop w (g * 2 ^ w % m) e m n (acc * 2 ^ w % m) =
      acc ^ 2 ^ n * g ^ (e % 2 ^ n) * 2 ^ w % m := by
  induction n generalizing acc with
  | zero => simp [montExpLoop, Nat.mod_one]
  | succ n ih =>
    rw [montExpLoop, Arith.montmul_in_domain ho, mod_two_pow_succ_eq]
    cases e.testBit n with
    | false =>
      rw [if_neg (by simp), ih, Bool.toNat_false]
      ring_nf
    | true =>
      rw [if_pos rfl, Arith.montmul_in_domain ho, ih, Bool.toNat_true]
      ring_nf

/-- The reference method computes the power reduced, for an exponent of w bits (R81). -/
theorem montExp_eq (ho : m % 2 = 1) (he : e < 2 ^ w) : montExp w g e m = g ^ e % m := by
  rw [montExp, Arith.montmul_rr ho, Arith.montmul_rr ho, montExpLoop_eq ho, Arith.montmul_one ho,
    one_pow, one_mul, Nat.mod_eq_of_lt he, ← Nat.pow_mod]

/-- The fixed-window loop over the low n digits of the exponent (R81). -/
theorem windowExpLoop_eq (win n acc : Nat) :
    windowExpLoop win g e m n (acc % m) =
      acc ^ 2 ^ (win * n) * g ^ (e % 2 ^ (win * n)) % m := by
  induction n generalizing acc with
  | zero => simp [windowExpLoop, Nat.mod_one]
  | succ n ih =>
    have hstep : (acc % m) ^ 2 ^ win * (g ^ (e / 2 ^ (win * n) % 2 ^ win) % m) % m =
        acc ^ 2 ^ win * g ^ (e / 2 ^ (win * n) % 2 ^ win) % m :=
      ((Nat.mod_modEq acc m).pow _).mul (Nat.mod_modEq _ m)
    rw [windowExpLoop, hstep, ih, Nat.mul_succ, pow_add, Nat.mod_mul]
    ring_nf

/-- A fixed window of any width computes the power reduced, for an exponent of n digits (R81). -/
theorem windowExp_eq {win n : Nat} (he : e < 2 ^ (win * n)) : windowExp win n g e m = g ^ e % m := by
  rw [windowExp, windowExpLoop_eq, one_pow, one_mul, Nat.mod_eq_of_lt he]

end

/-! ### The word-serial reduction -/

section
variable {b m mneg : Nat}

/-- The multiple of m that is added clears the low digit (R79). -/
theorem dvd_add_mul_of_neg_inverse {radix : Nat} (h : m * mneg + 1 ≡ 0 [MOD radix]) (t : Nat) :
    radix ∣ t + t % radix * mneg % radix * m := by
  apply (Nat.modEq_zero_iff_dvd).1
  calc t + t % radix * mneg % radix * m ≡ t + t * mneg * m [MOD radix] :=
        ((((Nat.mod_modEq _ _).trans ((Nat.mod_modEq _ _).mul_right _)).mul_right m).add_left t)
    _ = t * (m * mneg + 1) := by ring
    _ ≡ t * 0 [MOD radix] := h.mul_left t
    _ = 0 := mul_zero t

/-- One digit of the loop: a multiple of m below 2^32·m clears the low digit of t + a_0·b, and the sum is
shifted (R79). -/
theorem exists_serialLoop_succ_eq (hneg : m * mneg + 1 ≡ 0 [MOD 2 ^ 32]) (n a t : Nat) :
    ∃ u t', u < 2 ^ 32 ∧ t + a % 2 ^ 32 * b + u * m = 2 ^ 32 * t' ∧
      serialLoop b m mneg (n + 1) a t = serialLoop b m mneg n (a / 2 ^ 32) t' := by
  obtain ⟨t', ht'⟩ := dvd_add_mul_of_neg_inverse hneg (t + a % 2 ^ 32 * b)
  refine ⟨_, t', Nat.mod_lt _ (by decide), ht', ?_⟩
  rw [serialLoop, ht', Nat.mul_div_cancel_left _ (by decide)]

/-- The sum after a digit stays below 2m (R79). -/
theorem digit_lt_two_mul {radix digit u t t' : Nat} (ht : t < 2 * m) (hb : b < m)
    (hd : digit < radix) (hu : u < radix) (h : t + digit * b + u * m = radix * t') : t' < 2 * m := by
  refine Nat.lt_of_mul_lt_mul_left (a := radix) ?_
  calc radix * t' = t + digit * b + u * m := h.symm
    _ < 2 * m + digit * m + u * m := by
        have := Nat.mul_le_mul_left digit hb.le
        omega
    _ = (digit + 1) * m + (u + 1) * m := by ring
    _ ≤ radix * m + radix * m :=
        Nat.add_le_add (Nat.mul_le_mul_right m hd) (Nat.mul_le_mul_right m hu)
    _ = radix * (2 * m) := by ring

/-- The loop over n digits of a divides t + a·b by 2^(32n) modulo m, and stays below 2m (R79). -/
theorem serialLoop_spec (hneg : m * mneg + 1 ≡ 0 [MOD 2 ^ 32]) (hb : b < m) (n a : Nat) {t : Nat}
    (ht : t < 2 * m) :
    serialLoop b m mneg n a t < 2 * m ∧
      serialLoop b m mneg n a t * 2 ^ (32 * n) ≡ t + a % 2 ^ (32 * n) * b [MOD m] := by
  induction n generalizing a t with
  | zero => simp [serialLoop, ht, Nat.mod_one, Nat.ModEq.refl]
  | succ n ih =>
    obtain ⟨u, t', hu, hsum, hloop⟩ := exists_serialLoop_succ_eq (b := b) hneg n a t
    obtain ⟨hlt, hmod⟩ :=
      ih (a / 2 ^ 32) (digit_lt_two_mul ht hb (Nat.mod_lt a (by decide)) hu hsum)
    rw [hloop, two_pow_32_succ, Nat.mod_mul]
    refine ⟨hlt, ?_⟩
    calc serialLoop b m mneg n (a / 2 ^ 32) t' * (2 ^ 32 * 2 ^ (32 * n))
        = 2 ^ 32 * (serialLoop b m mneg n (a / 2 ^ 32) t' * 2 ^ (32 * n)) := by ring
      _ ≡ 2 ^ 32 * (t' + a / 2 ^ 32 % 2 ^ (32 * n) * b) [MOD m] := hmod.mul_left _
      _ = t + (a % 2 ^ 32 + 2 ^ 32 * (a / 2 ^ 32 % 2 ^ (32 * n))) * b + u * m := by
          rw [mul_add, ← hsum]; ring
      _ ≡ t + (a % 2 ^ 32 + 2 ^ 32 * (a / 2 ^ 32 % 2 ^ (32 * n))) * b [MOD m] :=
          Nat.add_mul_mod_self_right _ _ _

/-- 2^32 less the inverse of an odd m is −m⁻¹ modulo 2^32 (R79). -/
theorem neg_inverse_modEq (ho : m % 2 = 1) :
    m * (2 ^ 32 - Arith.inv m (2 ^ 32)) + 1 ≡ 0 [MOD 2 ^ 32] := by
  have hg : Nat.gcd (m % 2 ^ 32) (2 ^ 32) = 1 := by
    rw [gcd_mod_self_left]
    exact (Nat.coprime_two_right.2 (Nat.odd_iff.2 ho)).pow_right 32
  obtain ⟨hinv, hlt⟩ := Arith.inv_spec (by decide) hg
  have hone : m * Arith.inv m (2 ^ 32) ≡ 1 [MOD 2 ^ 32] := hinv
  calc m * (2 ^ 32 - Arith.inv m (2 ^ 32)) + 1
      ≡ m * (2 ^ 32 - Arith.inv m (2 ^ 32)) + m * Arith.inv m (2 ^ 32) [MOD 2 ^ 32] :=
        hone.symm.add_left _
    _ = m * 2 ^ 32 := by rw [← mul_add, Nat.sub_add_cancel hlt.le]
    _ ≡ 0 [MOD 2 ^ 32] := Nat.mul_mod_left _ _

/-- One subtraction of m takes a sum below 2m below m and keeps it modulo m (R79). -/
theorem reduce_once {t : Nat} (h : t < 2 * m) :
    (if m ≤ t then t - m else t) < m ∧ (if m ≤ t then t - m else t) ≡ t [MOD m] := by
  split
  · next hle => exact ⟨by omega, (Nat.mod_eq_sub_mod hle).symm⟩
  · next hlt => exact ⟨by omega, rfl⟩

end

/-- The word-serial product is below m and has the congruence of the Montgomery product (R77, R79). -/
theorem montSerial_spec {words a b m : Nat} (ho : m % 2 = 1) (hb : b < m)
    (ha : a < 2 ^ (32 * words)) :
    montSerial words a b m < m ∧ montSerial words a b m * 2 ^ (32 * words) ≡ a * b [MOD m] := by
  obtain ⟨hlt, hmod⟩ := serialLoop_spec (neg_inverse_modEq ho) hb words a (t := 0) (by omega)
  obtain ⟨hred, hcongr⟩ := reduce_once hlt
  rw [Nat.zero_add, Nat.mod_eq_of_lt ha] at hmod
  exact ⟨hred, (hcongr.mul_right _).trans hmod⟩

end Reference

/-! ### The numbers of a key -/

theorem modEq_one_of_mod_eq_one {a n : Nat} (h : a % n = 1) : a ≡ 1 [MOD n] :=
  (Nat.mod_modEq a n).symm.trans (by rw [h])

/-- For an exponent that is invertible modulo p − 1, the power modulo p depends on its remainder modulo
p − 1 alone: by Fermat where p does not divide the base, and both powers are 0 where it does (R91). -/
theorem pow_mod_sub_one_modEq {p d e : Nat} (hp : p.Prime) (ho : p % 2 = 1)
    (hed : e * d ≡ 1 [MOD p - 1]) (c : Nat) : c ^ (d % (p - 1)) ≡ c ^ d [MOD p] := by
  by_cases hc : p ∣ c
  · have hd : d % (p - 1) ≠ 0 := fun h0 => by
      have hdvd : p - 1 ∣ 1 :=
        (Nat.modEq_zero_iff_dvd).1 (hed.symm.trans ((Nat.modEq_zero_iff_dvd).2
          ((Nat.dvd_of_mod_eq_zero h0).mul_left e)))
      have := Nat.dvd_one.1 hdvd
      omega
    have hd' : d ≠ 0 := fun h0 => hd (by rw [h0, Nat.zero_mod])
    exact ((Nat.modEq_zero_iff_dvd).2 (dvd_pow hc hd)).trans
      ((Nat.modEq_zero_iff_dvd).2 (dvd_pow hc hd')).symm
  · have hfermat : c ^ (p - 1) ≡ 1 [MOD p] := by
      rw [← Nat.totient_prime hp]
      exact Nat.ModEq.pow_totient ((hp.coprime_iff_not_dvd.2 hc).symm)
    calc c ^ (d % (p - 1)) = 1 ^ (d / (p - 1)) * c ^ (d % (p - 1)) := by rw [one_pow, one_mul]
      _ ≡ (c ^ (p - 1)) ^ (d / (p - 1)) * c ^ (d % (p - 1)) [MOD p] :=
          ((hfermat.pow _).symm).mul_right _
      _ = c ^ d := by rw [← pow_mul, ← pow_add, Nat.div_add_mod]

/-- CRT of the remainders of n modulo coprime p and q is n modulo p·q (R92). -/
theorem Arith.crtValue_eq_mod {m1 m2 p q qinv n : Nat} (hp : 0 < p) (hpq : p.Coprime q)
    (hinv : qinv * q ≡ 1 [MOD p]) (h1 : m1 ≡ n [MOD p]) (h2 : m2 ≡ n [MOD q]) (hm2 : m2 < q) :
    crtValue m1 m2 p q qinv = n % (p * q) := by
  have hmod : crtValue m1 m2 p q qinv ≡ n [MOD p * q] :=
    (Nat.modEq_and_modEq_iff_modEq_mul hpq).1
      ⟨(crtValue_modEq_left hp hinv).trans h1, crtValue_modEq_right.trans h2⟩
  exact (Nat.mod_eq_of_modEq hmod.symm (crtValue_lt_mul hp hm2)).symm

/-! ### A sequence of commands -/

section
variable {s t : State} {rd : RegIdx} {v : Nat} {f : Bool}

theorem CompletedOk.x_ne (h : CompletedOk s t rd v f) {r : RegIdx} (hr : r ≠ rd) : t.x r = s.x r := by
  rw [State.x, h.others r hr, State.x]

/-- A successful completion keeps the registers W bits wide (R21, R70). -/
theorem CompletedOk.wellSized (h : CompletedOk s t rd v f) (hs : s.WellSized) : t.WellSized := by
  intro r
  rw [h.unchanged.params]
  by_cases hr : r = rd
  · rw [hr, h.width]
  · rw [h.others r hr, hs r]

end

/-! ### A prime candidate -/

/-- Where 1 has no square roots but 1 and −1, repeated squaring reaches 1 from 1 alone or through −1 (R87). -/
theorem eq_one_or_pow_two_pow_eq_neg_one {R : Type*} [Ring R] [NoZeroDivisors R] {y : R} {k : Nat}
    (h : y ^ 2 ^ k = 1) : y = 1 ∨ ∃ i < k, y ^ 2 ^ i = -1 := by
  induction k with
  | zero => exact .inl (by simpa using h)
  | succ k ih =>
    rw [pow_succ, pow_mul, sq, mul_self_eq_one_iff] at h
    obtain h | h := h
    · obtain hy | ⟨i, hi, hy⟩ := ih h
      · exact .inl hy
      · exact .inr ⟨i, Nat.lt_succ_of_lt hi, hy⟩
    · exact .inr ⟨k, Nat.lt_succ_self k, h⟩

/-- A prime x passes the round of every witness it does not divide (R87). -/
theorem prime_passes_round {x a d k : Nat} (hx : x.Prime) (hxk : x - 1 = d * 2 ^ k)
    (ha : ¬ x ∣ a) :
    a ^ d % x = 1 ∨ ∃ i < k, a ^ (d * 2 ^ i) % x = x - 1 := by
  have : Fact x.Prime := ⟨hx⟩
  have hunit : (a : ZMod x) ≠ 0 := mt (ZMod.natCast_eq_zero_iff a x).1 ha
  have hneg : (-1 : ZMod x) = ((x - 1 : Nat) : ZMod x) := by
    rw [Nat.cast_sub hx.one_le, ZMod.natCast_self, Nat.cast_one, zero_sub]
  have hfermat : ((a : ZMod x) ^ d) ^ 2 ^ k = 1 := by
    rw [← pow_mul, ← hxk, ZMod.pow_card_sub_one_eq_one hunit]
  obtain h | ⟨i, hi, h⟩ := eq_one_or_pow_two_pow_eq_neg_one hfermat
  · have hcast : ((a ^ d : Nat) : ZMod x) = ((1 : Nat) : ZMod x) := by push_cast; exact h
    rw [ZMod.natCast_eq_natCast_iff', Nat.mod_eq_of_lt hx.one_lt] at hcast
    exact .inl hcast
  · rw [← pow_mul, hneg] at h
    have hcast : ((a ^ (d * 2 ^ i) : Nat) : ZMod x) = ((x - 1 : Nat) : ZMod x) := by
      rw [Nat.cast_pow]; exact h
    rw [ZMod.natCast_eq_natCast_iff', Nat.mod_eq_of_lt (Nat.sub_lt hx.pos Nat.one_pos)] at hcast
    exact .inr ⟨i, hi, hcast⟩

/-! ### The statements -/

/-- Settles O30: the zero check is every command's first, the even check the second of those that have it. -/
theorem modulusErrorsComeFirst : Obligations.ModulusErrorsComeFirst :=
  ⟨fun _ _ _ hm h0 => exec_completedErr (resultOf_zeroModulus hm h0),
    fun _ _ _ hm hodd h0 he => exec_completedErr (resultOf_evenModulus hm hodd h0 he)⟩

/-- Settles O46: each method computes the power reduced, as MODEXP does. -/
theorem referenceMethodsComputeModexp : Obligations.ReferenceMethodsComputeModexp := by
  refine ⟨fun w g e m ho _ he => ?_, fun g e => ?_, fun win n g e m ho _ _ he => ?_⟩
  · rw [modexpResult_ok ho, Reference.montExp_eq ho he]
  · rw [modexpResult_ok rfl, Nat.mod_one]
  · rw [modexpResult_ok ho, Reference.windowExp_eq he]

/-- Settles O47: the word-serial product is a t below m with t·2^W ≡ a·b (mod m), so it is MONTMUL's. -/
theorem wordSerialReductionConforms : Obligations.WordSerialReductionConforms := by
  intro words a b m ho ha hb hm
  obtain ⟨hlt, hmod⟩ := Reference.montSerial_spec ho hb (ha.trans hm)
  exact montmulResult_eq_ok ho ha hb hlt hmod

/-- Settles O49: the two MODEXP leave the remainders of c^d modulo p and q, which CRT recombines. -/
theorem crtDecryptionAgreesWithDirectDecryption :
    Obligations.CrtDecryptionAgreesWithDirectDecryption := by
  intro s c dp dq p q qinv m1 m2 r e d hs hm1 hm2 hp hq hne hpo hqo hed hdp hdq _ hinv _ hfits
  simp only [List.mem_cons, List.not_mem_nil, or_false, not_or, ← ne_eq, ne_comm] at hm1 hm2
  obtain ⟨h1c, h1dq, h1p, h1q, h1qinv⟩ := hm1
  obtain ⟨h21, h2p, h2q, h2qinv⟩ := hm2
  have hed' : e * d ≡ 1 [MOD (s.x p - 1) * (s.x q - 1)] := modEq_one_of_mod_eq_one hed
  have hinv' : s.x qinv * s.x q ≡ 1 [MOD s.x p] := modEq_one_of_mod_eq_one hinv
  obtain ⟨-, hmodexp⟩ := modexpIsTheExactPowerModulo
  obtain ⟨-, -, hexec1⟩ := hmodexp m1 c dp p s hs
  obtain ⟨t1, ht1, hok1⟩ := hexec1 hpo
  obtain ⟨-, -, hexec2⟩ := hmodexp m2 c dq q t1 (hok1.wellSized hs)
  rw [hok1.x_ne h1c, hok1.x_ne h1dq, hok1.x_ne h1q] at hexec2
  obtain ⟨t2, ht2, hok2⟩ := hexec2 hqo
  have hx1 : t2.x m1 = s.x c ^ s.x dp % s.x p := (hok2.x_ne h21).trans hok1.result
  have hxp : t2.x p = s.x p := (hok2.x_ne h2p).trans (hok1.x_ne h1p)
  have hxq : t2.x q = s.x q := (hok2.x_ne h2q).trans (hok1.x_ne h1q)
  have hxqinv : t2.x qinv = s.x qinv := (hok2.x_ne h2qinv).trans (hok1.x_ne h1qinv)
  have hparams : t2.params = s.params := hok2.unchanged.params.trans hok1.unchanged.params
  have hlt1 : s.x c ^ s.x dp % s.x p < s.x p := Nat.mod_lt _ hp.pos
  have hlt2 : s.x c ^ s.x dq % s.x q < s.x q := Nat.mod_lt _ hq.pos
  have hmodp : s.x c ^ s.x dp % s.x p ≡ s.x c ^ d [MOD s.x p] :=
    (Nat.mod_modEq _ _).trans (hdp ▸ pow_mod_sub_one_modEq hp hpo (hed'.of_mul_right _) _)
  have hmodq : s.x c ^ s.x dq % s.x q ≡ s.x c ^ d [MOD s.x q] :=
    (Nat.mod_modEq _ _).trans (hdq ▸ pow_mod_sub_one_modEq hq hqo (hed'.of_mul_left _) _)
  have hvalue := Arith.crtValue_eq_mod hp.pos ((Nat.coprime_primes hp hq).2 hne) hinv' hmodp hmodq hlt2
  have hvlt : s.x c ^ d % (s.x p * s.x q) < 2 ^ s.params.width :=
    (Nat.mod_lt _ (Nat.mul_pos hp.pos hq.pos)).trans hfits
  have hr : resultOf (.crt r m1 m2 p q qinv) t2 = .ok (s.x c ^ d % (s.x p * s.x q)) false := by
    refine crtResult_eq_ok_iff.2 ?_
    rw [hx1, hok2.result, hxp, hxq, hxqinv, hparams]
    exact ⟨hlt1, hlt2, hvlt, hvalue.symm, rfl⟩
  obtain ⟨t3, ht3, hok3⟩ := exec_completedOk hr (by rwa [hparams])
  exact ⟨t1, t2, t3, ht1, ht2, ht3, hok3.err, hok3.result⟩

/-- Settles O50: d modulo p − 1 is an inverse of e modulo p − 1, and MODINV's is the only one below it. -/
theorem keyExponentsAgree : Obligations.KeyExponentsAgree := by
  intro rd e pm1 s d qm1 hs hpm _ h
  have hed : s.x e * d ≡ 1 [MOD s.x pm1] := Nat.ModEq.of_mul_right qm1 h
  obtain ⟨-, hmodinv⟩ := modinvIsTheReducedInverse
  obtain ⟨-, -, hexec⟩ := hmodinv rd e pm1 s hs
  obtain ⟨t, v, ht, hok, -, -, hunique⟩ := hexec hpm (Nat.coprime_of_mul_modEq_one d hed)
  have hinv : s.x e * (d % s.x pm1) ≡ 1 [MOD s.x pm1] := ((Nat.mod_modEq d _).mul_left _).trans hed
  rw [← hunique _ (Nat.mod_lt _ hpm) hinv] at hok
  exact ⟨t, ht, hok⟩

/-- Settles O51: a prime passes the round, and a round that is passed has verdict 0. -/
theorem mrwitNeverCondemnsAPrime : Obligations.MrwitNeverCondemnsAPrime := by
  intro rd x a s hs hx h3 ha
  have ho : s.x x % 2 = 1 := hx.eq_two_or_odd.resolve_left (by omega)
  obtain ⟨-, hround⟩ := mrwitRunsOneWitnessRound
  obtain ⟨-, -, -, hexec⟩ := hround rd x a s hs
  obtain ⟨t, d, k, hxk, -, -, ht, hpass, -⟩ := hexec ho h3
  exact ⟨t, ht, hpass (prime_passes_round hx hxk ha)⟩

end Sys2Proof.Machine
